-- ==== Sys2Proof/Word.lean ====
section
/-! DEFINITION. The word types of the block (00_scope.md R6, R7): every register value is unsigned, nothing is ever
read as a signed number. Arithmetic that wraps is `BitVec` arithmetic; an address while it is computed is a `Nat`
(20_memory.md R53), so it never wraps. -/

namespace Sys2Proof

/-- 8 bits: a general register, a timer, a byte of memory (R4 `REG_W`, R20). -/
abbrev Byte := BitVec 8

/-- 16 bits: the index register, the program counter, a call-stack slot, an instruction word (R4, R70). -/
abbrev Word := BitVec 16

/-- The number of a general register, 0..15 (R21; the fields `X` and `Y` of R71). -/
abbrev Reg := Fin 16

/-- A key code, 0..15 (R29, R126). A code outside the range cannot be sent (R174), so the type has no other. -/
abbrev Key := Fin 16

end Sys2Proof
end

