-- ==== Sys2Proof/Syntax.lean ====
section
/-! DEFINITION. The 34 instructions of the opcode table (30_encoding.md R75), one constructor per row, in the table's
order. A register field is a `Reg` (0..15), an immediate is the bits as they stand in the word: `NN` 8 bits, `NNN`
12 bits, `N` 4 bits (R71, R73). So every term of the type is a well-formed instruction (see WellFormed.lean). -/

namespace Sys2Proof

/-- The instructions. The comment of each is its pattern (R75). -/
inductive Instr where
  /-- `00E0` `CLS` -/
  | cls
  /-- `00EE` `RET` -/
  | ret
  /-- `1NNN` `JP NNN` -/
  | jp (nnn : BitVec 12)
  /-- `2NNN` `CALL NNN` -/
  | call (nnn : BitVec 12)
  /-- `3XNN` `SE Vx, NN` -/
  | seImm (x : Reg) (nn : Byte)
  /-- `4XNN` `SNE Vx, NN` -/
  | sneImm (x : Reg) (nn : Byte)
  /-- `5XY0` `SE Vx, Vy` -/
  | seReg (x y : Reg)
  /-- `6XNN` `LD Vx, NN` -/
  | ldImm (x : Reg) (nn : Byte)
  /-- `7XNN` `ADD Vx, NN` -/
  | addImm (x : Reg) (nn : Byte)
  /-- `8XY0` `LD Vx, Vy` -/
  | ldReg (x y : Reg)
  /-- `8XY1` `OR Vx, Vy` -/
  | orReg (x y : Reg)
  /-- `8XY2` `AND Vx, Vy` -/
  | andReg (x y : Reg)
  /-- `8XY3` `XOR Vx, Vy` -/
  | xorReg (x y : Reg)
  /-- `8XY4` `ADD Vx, Vy` -/
  | addReg (x y : Reg)
  /-- `8XY5` `SUB Vx, Vy` -/
  | sub (x y : Reg)
  /-- `8XY6` `SHR Vx, Vy` -/
  | shr (x y : Reg)
  /-- `8XY7` `SUBN Vx, Vy` -/
  | subn (x y : Reg)
  /-- `8XYE` `SHL Vx, Vy` -/
  | shl (x y : Reg)
  /-- `9XY0` `SNE Vx, Vy` -/
  | sneReg (x y : Reg)
  /-- `ANNN` `LD I, NNN` -/
  | ldI (nnn : BitVec 12)
  /-- `BNNN` `JP V0, NNN` -/
  | jpV0 (nnn : BitVec 12)
  /-- `CXNN` `RND Vx, NN` -/
  | rnd (x : Reg) (nn : Byte)
  /-- `DXYN` `DRW Vx, Vy, N` -/
  | drw (x y : Reg) (n : BitVec 4)
  /-- `EX9E` `SKP Vx` -/
  | skp (x : Reg)
  /-- `EXA1` `SKNP Vx` -/
  | sknp (x : Reg)
  /-- `FX07` `LD Vx, DT` -/
  | ldVxDt (x : Reg)
  /-- `FX0A` `LD Vx, K` -/
  | ldVxK (x : Reg)
  /-- `FX15` `LD DT, Vx` -/
  | ldDtVx (x : Reg)
  /-- `FX18` `LD ST, Vx` -/
  | ldStVx (x : Reg)
  /-- `FX1E` `ADD I, Vx` -/
  | addI (x : Reg)
  /-- `FX29` `LD F, Vx` -/
  | ldF (x : Reg)
  /-- `FX33` `LD B, Vx` -/
  | ldB (x : Reg)
  /-- `FX55` `LD [I], Vx` -/
  | stRegs (x : Reg)
  /-- `FX65` `LD Vx, [I]` -/
  | ldRegs (x : Reg)
  deriving DecidableEq, Repr

end Sys2Proof
end

