-- ==== Sys2Proof/Decode.lean ====
section
/-! DEFINITION. From bytes to instructions and back (30_encoding.md R70 to R79; byte order 20_memory.md R54). The decoder
is total: a word that matches no row of R75 is rejected under the name of its group in R76. The encoder is written from
the formats of R72, the opcode table is R75's `match` and `mask` columns. -/

namespace Sys2Proof

/-- Fetch is big-endian (R54): the byte at the lower address is bits 15:8. -/
def wordOfBytes (hi lo : Byte) : Word := hi ++ lo

/-- Bits 15:8 of a word: the byte stored at the lower address (R54). -/
def highByte (w : Word) : Byte := w.extractLsb' 8 8

/-- Bits 7:0 of a word: the byte stored at the higher address (R54). -/
def lowByte (w : Word) : Byte := w.extractLsb' 0 8

/-- A 4-bit field read as the number of a general register (R71). -/
def regOfNibble (b : BitVec 4) : Reg := b.toFin

/-- The 4-bit field that holds a register number (R71). -/
def nibbleOfReg (r : Reg) : BitVec 4 := ⟨r⟩

/-- `OP`, `w[15:12]` (R71): the first dispatch key. -/
def fieldOp (w : Word) : BitVec 4 := w.extractLsb' 12 4

/-- `X`, `w[11:8]` (R71). -/
def fieldX (w : Word) : Reg := regOfNibble (w.extractLsb' 8 4)

/-- `Y`, `w[7:4]` (R71). -/
def fieldY (w : Word) : Reg := regOfNibble (w.extractLsb' 4 4)

/-- `N`, `w[3:0]` (R71). -/
def fieldN (w : Word) : BitVec 4 := w.extractLsb' 0 4

/-- `NN`, `w[7:0]` (R71). -/
def fieldNN (w : Word) : Byte := w.extractLsb' 0 8

/-- `NNN`, `w[11:0]` (R71). -/
def fieldNNN (w : Word) : BitVec 12 := w.extractLsb' 0 12

/-- Why bytes are no instruction: fewer than two of them (R70), or one of the six groups of invalid words of R76. -/
inductive DecodeReject where
  /-- Fewer than the 2 bytes every instruction has (R70). -/
  | truncated
  /-- `0NNN` other than `00E0` and `00EE` (R76, R77). -/
  | machineRoutine
  /-- `5XYn` with `n` not 0 (R76). -/
  | seRegNibble
  /-- `8XYn` with `n` in 8, 9, A, B, C, D, F (R76). -/
  | aluFunction
  /-- `9XYn` with `n` not 0 (R76). -/
  | sneRegNibble
  /-- `EXnn` with `nn` not 9E or A1 (R76). -/
  | keyFunction
  /-- `FXnn` with `nn` none of the nine function codes (R76). -/
  | miscFunction
  deriving DecidableEq, Repr

/-- The group `OP = 8`: the low nibble selects among nine functions (R74). -/
def decodeAlu (w : Word) : Except DecodeReject Instr :=
  match (fieldN w).toNat with
  | 0x0 => .ok (.ldReg (fieldX w) (fieldY w))
  | 0x1 => .ok (.orReg (fieldX w) (fieldY w))
  | 0x2 => .ok (.andReg (fieldX w) (fieldY w))
  | 0x3 => .ok (.xorReg (fieldX w) (fieldY w))
  | 0x4 => .ok (.addReg (fieldX w) (fieldY w))
  | 0x5 => .ok (.sub (fieldX w) (fieldY w))
  | 0x6 => .ok (.shr (fieldX w) (fieldY w))
  | 0x7 => .ok (.subn (fieldX w) (fieldY w))
  | 0xE => .ok (.shl (fieldX w) (fieldY w))
  | _ => .error .aluFunction

/-- The group `OP = E`: the low byte selects the function (R74). -/
def decodeKey (w : Word) : Except DecodeReject Instr :=
  match (fieldNN w).toNat with
  | 0x9E => .ok (.skp (fieldX w))
  | 0xA1 => .ok (.sknp (fieldX w))
  | _ => .error .keyFunction

/-- The group `OP = F`: the low byte selects the function (R74). -/
def decodeMisc (w : Word) : Except DecodeReject Instr :=
  match (fieldNN w).toNat with
  | 0x07 => .ok (.ldVxDt (fieldX w))
  | 0x0A => .ok (.ldVxK (fieldX w))
  | 0x15 => .ok (.ldDtVx (fieldX w))
  | 0x18 => .ok (.ldStVx (fieldX w))
  | 0x1E => .ok (.addI (fieldX w))
  | 0x29 => .ok (.ldF (fieldX w))
  | 0x33 => .ok (.ldB (fieldX w))
  | 0x55 => .ok (.stRegs (fieldX w))
  | 0x65 => .ok (.ldRegs (fieldX w))
  | _ => .error .miscFunction

/-- R74: dispatch "by the high nibble and, where ambiguous, by secondary nibbles"; all sixteen bits take part (the
spec's decisions D13, D14: log entry 10). -/
def decodeWord (w : Word) : Except DecodeReject Instr :=
  match (fieldOp w).toNat with
  | 0x0 =>
    if w = 0x00E0#16 then .ok .cls
    else if w = 0x00EE#16 then .ok .ret
    else .error .machineRoutine
  | 0x1 => .ok (.jp (fieldNNN w))
  | 0x2 => .ok (.call (fieldNNN w))
  | 0x3 => .ok (.seImm (fieldX w) (fieldNN w))
  | 0x4 => .ok (.sneImm (fieldX w) (fieldNN w))
  | 0x5 => if fieldN w = 0#4 then .ok (.seReg (fieldX w) (fieldY w)) else .error .seRegNibble
  | 0x6 => .ok (.ldImm (fieldX w) (fieldNN w))
  | 0x7 => .ok (.addImm (fieldX w) (fieldNN w))
  | 0x8 => decodeAlu w
  | 0x9 => if fieldN w = 0#4 then .ok (.sneReg (fieldX w) (fieldY w)) else .error .sneRegNibble
  | 0xA => .ok (.ldI (fieldNNN w))
  | 0xB => .ok (.jpV0 (fieldNNN w))
  | 0xC => .ok (.rnd (fieldX w) (fieldNN w))
  | 0xD => .ok (.drw (fieldX w) (fieldY w) (fieldN w))
  | 0xE => decodeKey w
  | _ => decodeMisc w -- 0xF, the one value of a nibble that is left

/-- Decode the instruction at the head of a list of bytes, and give back the rest (R70, R79: every instruction is
2 bytes long). -/
def decode : List Byte → Except DecodeReject (Instr × List Byte)
  | hi :: lo :: rest =>
    match decodeWord (wordOfBytes hi lo) with
    | .ok i => .ok (i, rest)
    | .error e => .error e
  | _ => .error .truncated

/-- Format `NNN` (R72). -/
def formatNNN (op : BitVec 4) (nnn : BitVec 12) : Word := op ++ nnn

/-- Format `XNN` (R72); format `X` is the same layout with a function code in the place of `NN`. -/
def formatXNN (op : BitVec 4) (x : Reg) (nn : Byte) : Word := op ++ nibbleOfReg x ++ nn

/-- Format `XYN` (R72); format `XY` is the same layout with a function code in the place of `N`. -/
def formatXYN (op : BitVec 4) (x y : Reg) (n : BitVec 4) : Word := op ++ nibbleOfReg x ++ nibbleOfReg y ++ n

/-- The word of an instruction (R72, R75). -/
def encode : Instr → Word
  | .cls => 0x00E0#16
  | .ret => 0x00EE#16
  | .jp nnn => formatNNN 0x1#4 nnn
  | .call nnn => formatNNN 0x2#4 nnn
  | .seImm x nn => formatXNN 0x3#4 x nn
  | .sneImm x nn => formatXNN 0x4#4 x nn
  | .seReg x y => formatXYN 0x5#4 x y 0x0#4
  | .ldImm x nn => formatXNN 0x6#4 x nn
  | .addImm x nn => formatXNN 0x7#4 x nn
  | .ldReg x y => formatXYN 0x8#4 x y 0x0#4
  | .orReg x y => formatXYN 0x8#4 x y 0x1#4
  | .andReg x y => formatXYN 0x8#4 x y 0x2#4
  | .xorReg x y => formatXYN 0x8#4 x y 0x3#4
  | .addReg x y => formatXYN 0x8#4 x y 0x4#4
  | .sub x y => formatXYN 0x8#4 x y 0x5#4
  | .shr x y => formatXYN 0x8#4 x y 0x6#4
  | .subn x y => formatXYN 0x8#4 x y 0x7#4
  | .shl x y => formatXYN 0x8#4 x y 0xE#4
  | .sneReg x y => formatXYN 0x9#4 x y 0x0#4
  | .ldI nnn => formatNNN 0xA#4 nnn
  | .jpV0 nnn => formatNNN 0xB#4 nnn
  | .rnd x nn => formatXNN 0xC#4 x nn
  | .drw x y n => formatXYN 0xD#4 x y n
  | .skp x => formatXNN 0xE#4 x 0x9E#8
  | .sknp x => formatXNN 0xE#4 x 0xA1#8
  | .ldVxDt x => formatXNN 0xF#4 x 0x07#8
  | .ldVxK x => formatXNN 0xF#4 x 0x0A#8
  | .ldDtVx x => formatXNN 0xF#4 x 0x15#8
  | .ldStVx x => formatXNN 0xF#4 x 0x18#8
  | .addI x => formatXNN 0xF#4 x 0x1E#8
  | .ldF x => formatXNN 0xF#4 x 0x29#8
  | .ldB x => formatXNN 0xF#4 x 0x33#8
  | .stRegs x => formatXNN 0xF#4 x 0x55#8
  | .ldRegs x => formatXNN 0xF#4 x 0x65#8

/-- The two bytes of an instruction as they stand in memory, lowest address first (R54). -/
def encodeBytes (i : Instr) : List Byte := [highByte (encode i), lowByte (encode i)]

/-- A row of the opcode table (R75): its table id, and the `match` and `mask` columns. A word `w` selects the row when
`w &&& mask = fixed`. -/
structure OpcodeRow where
  mnemonic : String
  fixed : Word
  mask : Word
  deriving DecidableEq, Repr

/-- The row of R75 that an instruction belongs to. -/
def rowOf : Instr → OpcodeRow
  | .cls => ⟨"CLS", 0x00E0, 0xFFFF⟩
  | .ret => ⟨"RET", 0x00EE, 0xFFFF⟩
  | .jp _ => ⟨"JP", 0x1000, 0xF000⟩
  | .call _ => ⟨"CALL", 0x2000, 0xF000⟩
  | .seImm _ _ => ⟨"SE_IMM", 0x3000, 0xF000⟩
  | .sneImm _ _ => ⟨"SNE_IMM", 0x4000, 0xF000⟩
  | .seReg _ _ => ⟨"SE_REG", 0x5000, 0xF00F⟩
  | .ldImm _ _ => ⟨"LD_IMM", 0x6000, 0xF000⟩
  | .addImm _ _ => ⟨"ADD_IMM", 0x7000, 0xF000⟩
  | .ldReg _ _ => ⟨"LD_REG", 0x8000, 0xF00F⟩
  | .orReg _ _ => ⟨"OR", 0x8001, 0xF00F⟩
  | .andReg _ _ => ⟨"AND", 0x8002, 0xF00F⟩
  | .xorReg _ _ => ⟨"XOR", 0x8003, 0xF00F⟩
  | .addReg _ _ => ⟨"ADD_REG", 0x8004, 0xF00F⟩
  | .sub _ _ => ⟨"SUB", 0x8005, 0xF00F⟩
  | .shr _ _ => ⟨"SHR", 0x8006, 0xF00F⟩
  | .subn _ _ => ⟨"SUBN", 0x8007, 0xF00F⟩
  | .shl _ _ => ⟨"SHL", 0x800E, 0xF00F⟩
  | .sneReg _ _ => ⟨"SNE_REG", 0x9000, 0xF00F⟩
  | .ldI _ => ⟨"LD_I", 0xA000, 0xF000⟩
  | .jpV0 _ => ⟨"JP_V0", 0xB000, 0xF000⟩
  | .rnd _ _ => ⟨"RND", 0xC000, 0xF000⟩
  | .drw _ _ _ => ⟨"DRW", 0xD000, 0xF000⟩
  | .skp _ => ⟨"SKP", 0xE09E, 0xF0FF⟩
  | .sknp _ => ⟨"SKNP", 0xE0A1, 0xF0FF⟩
  | .ldVxDt _ => ⟨"LD_VX_DT", 0xF007, 0xF0FF⟩
  | .ldVxK _ => ⟨"LD_VX_K", 0xF00A, 0xF0FF⟩
  | .ldDtVx _ => ⟨"LD_DT_VX", 0xF015, 0xF0FF⟩
  | .ldStVx _ => ⟨"LD_ST_VX", 0xF018, 0xF0FF⟩
  | .addI _ => ⟨"ADD_I", 0xF01E, 0xF0FF⟩
  | .ldF _ => ⟨"LD_F", 0xF029, 0xF0FF⟩
  | .ldB _ => ⟨"LD_B", 0xF033, 0xF0FF⟩
  | .stRegs _ => ⟨"ST_REGS", 0xF055, 0xF0FF⟩
  | .ldRegs _ => ⟨"LD_REGS", 0xF065, 0xF0FF⟩

/-- One instruction of each row, in the table's order. -/
def rowWitnesses : List Instr :=
  [.cls, .ret, .jp 0, .call 0, .seImm 0 0, .sneImm 0 0, .seReg 0 0, .ldImm 0 0, .addImm 0 0, .ldReg 0 0, .orReg 0 0,
    .andReg 0 0, .xorReg 0 0, .addReg 0 0, .sub 0 0, .shr 0 0, .subn 0 0, .shl 0 0, .sneReg 0 0, .ldI 0, .jpV0 0,
    .rnd 0 0, .drw 0 0 0, .skp 0, .sknp 0, .ldVxDt 0, .ldVxK 0, .ldDtVx 0, .ldStVx 0, .addI 0, .ldF 0, .ldB 0,
    .stRegs 0, .ldRegs 0]

/-- The opcode table (R75), 34 rows in the table's order. -/
def opcodeTable : List OpcodeRow := rowWitnesses.map rowOf

/-- R74: the word selects the row. -/
def OpcodeRow.selects (r : OpcodeRow) (w : Word) : Bool := w &&& r.mask == r.fixed

/-- The instruction the decoder reads from an instruction whose `nbits` bits are `w`, bit 0 the least significant bit of
the word. Bits above `nbits`, and above the 16 every instruction has (R70), are not part of it. The word is laid out
big-endian (R54) and given to `decode` as bytes. -/
def decodeTableWord (nbits w : Nat) : Option Instr :=
  let bits : Word := BitVec.ofNat 16 (w % 2 ^ nbits)
  match decode [highByte bits, lowByte bits] with
  | .ok (i, _) => some i
  | .error _ => none

end Sys2Proof
end

