-- ==== Sys2Proof/Config.lean ====
section
/-! DEFINITION. The parameters of the block: the constants the source fixes (00_scope.md R4), the parameters it leaves
OPEN (R5, 92_eei_decisions.md D6, D7) and the free random byte (D15). An open parameter and the free byte are `opaque`:
nothing can be proved about their values, so a claim holds for every value of them. -/

namespace Sys2Proof

/-- `MEM_SIZE` (R4): bytes of memory, at addresses 0 to 4095. -/
abbrev memSize : Nat := 4096

/-- `PROG_BASE` (R4): where the program image starts; also the reset value of `PC`. -/
abbrev progBase : Nat := 0x200

/-- `FONT_BASE` (R4): the address of the first byte of the font table. -/
abbrev fontBase : Nat := 0

/-- `STACK_DEPTH` (R4): call-stack entries. -/
abbrev stackDepth : Nat := 16

/-- `MAX_ROM` (R5): the longest program image, `MEM_SIZE - PROG_BASE`. -/
abbrev maxRom : Nat := memSize - progBase

/-- The two values of the open parameter `SHIFT_SOURCE` (R5, D6). -/
inductive ShiftSource where
  /-- `8XY6` and `8XYE` shift `V[X]` in place. -/
  | vx
  /-- `8XY6` and `8XYE` shift `V[Y]` into `V[X]`. -/
  | vy
  deriving DecidableEq, Repr, Inhabited

/-- `SHIFT_SOURCE` (R5, D6): OPEN in the spec, so it has no value here. Log entry 4. -/
opaque Config.shiftSource : ShiftSource

/-- `LOADSTORE_INCREMENTS_I` (R5, D7): OPEN in the spec, so it has no value here. Log entry 5. -/
opaque Config.loadStoreIncrementsI : Bool

/-- `rnd` (R5, R34, R102, D15): the byte of the `n`-th draw. A free value "under no law": no distribution, no seed, no
relation between successive values. `State.draws` counts the draws. Log entry 3. -/
opaque Config.rnd : Nat → Byte

end Sys2Proof
end

