-- ==== Sys2Proof/Machine/State.lean ====
section
/-! DEFINITION. The state of the block (10_state.md R20 to R33) as plain data, its reset value (R35, R201), and the
reasons a step could stop. Everything R20 lists is a field; the last two fields are the model's own. -/

namespace Sys2Proof.Machine

/-- The four faults (60_exceptions.md R160), as the `reason` of `Halted(reason)` (R33). A fault is no stop of the model:
raising one is a next state with `RUN = Halted(reason)` (R165). -/
inductive HaltReason where
  /-- R162: the fetched word matches no row of the opcode table. -/
  | invalidOpcode
  /-- R161: an access to memory at an address of 4096 or more. -/
  | memoryOutOfBounds
  /-- R163: `2NNN` with 16 entries in use. -/
  | stackOverflow
  /-- R164: `00EE` with no entry in use. -/
  | stackUnderflow
  deriving DecidableEq, Repr

/-- `RUN`, the run state (R33, R168). -/
inductive RunState where
  | idle
  | running
  | paused
  | halted (reason : HaltReason)
  deriving DecidableEq, Repr

/-- The steps of the block's agents (00_scope.md R10): the executor's `Cycle`, the timer's `Tick`, and the host's
commands. `Cycle`'s random byte is drawn from `Config.rnd` (log entry 3). -/
inductive Event where
  /-- `Cycle(rnd)` (R176). -/
  | cycle
  /-- `Tick` (R173). -/
  | tick
  /-- `keyDown(k)` (R174). -/
  | keyDown (k : Key)
  /-- `keyUp(k)` (R175). -/
  | keyUp (k : Key)
  /-- `start(rom)` (R169): the reset. -/
  | start (rom : List Byte)
  /-- `stop` (R170). -/
  | stop
  /-- `togglePause` (R171). -/
  | togglePause
  deriving DecidableEq, Repr

/-- `MEM` (R32, R50): address and byte, addresses strictly rising, no entry equal to what an unlisted address reads as
(`unlisted` in Ops.lean: the font table and zeros, R51). -/
abbrev Memory := List Host.Cell

/-- `FB` (R31, R110): 32 rows of 64 pixels; row 0 is the top row, column 0 the left column. -/
abbrev Frame := Vector (Vector Bool 64) 32

/-- The state of the block. -/
structure State where
  /-- `MEM` (R32). -/
  mem : Memory
  /-- `V[0..15]` (R21); `V[15]` is `VF`, the one flag (R22). -/
  v : Vector Byte 16
  /-- `I`, the index register (R23). -/
  index : Word
  /-- `PC`, the program counter (R24). -/
  pc : Word
  /-- `SP`, the number of call-stack entries in use, 0..16 (R26). -/
  sp : Fin 17
  /-- `STACK[0..15]` (R26). -/
  stack : Vector Word 16
  /-- `DT`, the delay timer (R27). -/
  dt : Byte
  /-- `ST`, the sound timer (R28). -/
  st : Byte
  /-- `KEYS[0..15]` (R29). -/
  keys : Vector Bool 16
  /-- `KW`, the key-wait latch (R30). -/
  kw : Option Reg
  /-- `FB`, the display buffer (R31). -/
  fb : Frame
  /-- `RUN`, the run state (R33). -/
  run : RunState
  /-- THE MODEL'S OWN: how many random bytes have been drawn (log entry 3). -/
  draws : Nat
  /-- THE MODEL'S OWN: the steps the outside has placed next on the one timeline (R178), oldest first; when none is
  placed the executor runs a cycle (log entry 2). -/
  timeline : List Event
  deriving DecidableEq, Repr

/-- Reasons the model stops with a fault: none. Every fault of the spec is a next state (R165, log entry 1), so no
meaning and no step answers one. Safe: nothing is cut short. -/
inductive Fault where
  deriving DecidableEq, Repr

/-- Reasons an instruction has no meaning. -/
inductive Refusal where
  /-- An arm of `exec` that is not modelled yet. No arm is left, so nobody raises it. Safe: it would stop the run. -/
  | notModelled (mnemonic : String)
  deriving DecidableEq, Repr

/-- What a step or a meaning answers. -/
abbrev Result := Host.Outcome State Fault Refusal

/-- The state after reset (R35, R201), with nothing but the font table and zeros in memory: what `start` leaves for an
image of zeros (log entry 7; D21: log entry 22). `draws` and `timeline` are the model's own (log entries 2 and 3). -/
def State.reset : State where
  mem := []
  v := Vector.replicate 16 0
  index := 0
  pc := BitVec.ofNat 16 progBase
  sp := 0
  stack := Vector.replicate 16 0
  dt := 0
  st := 0
  keys := Vector.replicate 16 false
  kw := none
  fb := Vector.replicate 32 (Vector.replicate 64 false)
  run := .running
  draws := 0
  timeline := []

end Sys2Proof.Machine
end

