-- ==== Sys2Proof/Machine/Ops.lean ====
section
/-! DEFINITION. The named operations every meaning is written with: memory (20_memory.md), registers and program
counter, the call stack, raising a fault (60_exceptions.md R165), the instruction fetch, and the blit engine
(41_display.md section 3). -/

namespace Sys2Proof.Machine

/-! ## Memory -/

/-- `FONT_TABLE` (20_memory.md R63): sixteen glyphs of five bytes, glyph `d` at `5 * d`. The bytes are the spec's own,
from general knowledge (D16): log entry 6. -/
def fontTable : List Byte :=
  [0xF0, 0x90, 0x90, 0x90, 0xF0] ++ [0x20, 0x60, 0x20, 0x20, 0x70] ++ [0xF0, 0x10, 0xF0, 0x80, 0xF0] ++
  [0xF0, 0x10, 0xF0, 0x10, 0xF0] ++ [0x90, 0x90, 0xF0, 0x10, 0x10] ++ [0xF0, 0x80, 0xF0, 0x10, 0xF0] ++
  [0xF0, 0x80, 0xF0, 0x90, 0xF0] ++ [0xF0, 0x10, 0x20, 0x40, 0x40] ++ [0xF0, 0x90, 0xF0, 0x90, 0xF0] ++
  [0xF0, 0x90, 0xF0, 0x10, 0xF0] ++ [0xF0, 0x90, 0xF0, 0x90, 0x90] ++ [0xE0, 0x90, 0xE0, 0x90, 0xE0] ++
  [0xF0, 0x80, 0x80, 0x80, 0xF0] ++ [0xE0, 0x90, 0x90, 0x90, 0xE0] ++ [0xF0, 0x80, 0xF0, 0x80, 0xF0] ++
  [0xF0, 0x80, 0xF0, 0x80, 0x80]

/-- `GLYPH_BYTES` (R5): bytes per glyph. -/
def glyphBytes : Nat := 5

/-- What an address that memory does not list reads as (R35, R51): the font table from `FONT_BASE` (0) on, zero above it
(at 4096 or more, where no step reads, too: log entry 27). -/
def unlisted (a : Nat) : Byte := fontTable.getD a 0

/-- The byte at an address (R58: the latest write, or the reset value). -/
def Memory.read : Memory → Nat → Byte
  | [], a => unlisted a
  | (k, b) :: rest, a => if k = a then b else Memory.read rest a

/-- Put a cell in its place by address, unless the byte is what an unlisted address reads as. -/
def Memory.place : Memory → Nat → Byte → Memory
  | [], a, b => if b = unlisted a then [] else [(a, b)]
  | (k, c) :: rest, a, b =>
    if k < a then (k, c) :: Memory.place rest a b
    else if b = unlisted a then (k, c) :: rest
    else (a, b) :: (k, c) :: rest

/-- Write one byte (R52: an access at 4096 or more is not performed, log entry 27; no byte is protected, D34: log entry
24). The form stays canonical. -/
def Memory.write (m : Memory) (a : Nat) (b : Byte) : Memory :=
  if a < memSize then Memory.place (m.filter fun c => c.1 ≠ a) a b else m

/-- The canonical form from address `lo` on: addresses rise strictly and stay in memory, and no byte is the one its
unlisted address reads as. -/
def Memory.wfFrom (lo : Nat) : Memory → Bool
  | [] => true
  | (a, b) :: rest => decide (lo ≤ a) && decide (a < memSize) && decide (b ≠ unlisted a) && Memory.wfFrom (a + 1) rest

/-- The canonical form of a memory. -/
def Memory.wf (m : Memory) : Bool := Memory.wfFrom 0 m

/-- The cells of a program image whose first byte goes to address `a` (R201). -/
def Memory.image (a : Nat) : List Byte → Memory
  | [] => []
  | b :: rest => if b = unlisted a then Memory.image (a + 1) rest else (a, b) :: Memory.image (a + 1) rest

/-- The bounds check (R52) of an access to `count` bytes from `base` on, all at once: the highest address is below 4096,
computed without wrap (R53). No byte, no check (R115). -/
def spanInMemory (base count : Nat) : Bool := decide (count = 0 ∨ base + (count - 1) < memSize)

/-- Store bytes at consecutive addresses, lowest first (R55). -/
def Memory.store (m : Memory) (base : Nat) : List Byte → Memory
  | [] => m
  | b :: rest => Memory.store (Memory.write m base b) (base + 1) rest

/-- Load bytes from consecutive addresses, lowest first (R55). -/
def Memory.load (m : Memory) (base count : Nat) : List Byte :=
  (List.range count).map fun k => Memory.read m (base + k)

/-! ## Registers -/

/-- `V[r]` (R8, R21). -/
def State.reg (s : State) (r : Reg) : Byte := s.v[r]

/-- `V[r] <- b` (R8, R21). -/
def State.setReg (s : State) (r : Reg) (b : Byte) : State := { s with v := s.v.set r b }

/-- The number of `VF` (R22). -/
def vf : Reg := 15

/-- The result goes to `V[x]`, then the flag to `VF`: the flag is what remains when `x = 15` (40_alu.md R90, D11). -/
def State.setRegFlag (s : State) (x : Reg) (result flag : Byte) : State := (s.setReg x result).setReg vf flag

/-- `I <- w`. -/
def State.setIndex (s : State) (w : Word) : State := { s with index := w }

/-- `MEM <- m`. -/
def State.setMem (s : State) (m : Memory) : State := { s with mem := m }

/-- `FB <- f`. -/
def State.setFb (s : State) (f : Frame) : State := { s with fb := f }

/-- `DT <- b`. -/
def State.setDt (s : State) (b : Byte) : State := { s with dt := b }

/-- `ST <- b`. -/
def State.setSt (s : State) (b : Byte) : State := { s with st := b }

/-- `KEYS[k] <- down`. -/
def State.setKey (s : State) (k : Key) (down : Bool) : State := { s with keys := s.keys.set k down }

/-- `KW <- w`. -/
def State.setKw (s : State) (w : Option Reg) : State := { s with kw := w }

/-- `RUN <- r`. -/
def State.setRun (s : State) (r : RunState) : State := { s with run := r }

/-- One random byte has been drawn. -/
def State.drawn (s : State) : State := { s with draws := s.draws + 1 }

/-! ## Program counter -/

/-- `PC <- w` (R8). -/
def State.setPc (s : State) (w : Word) : State := { s with pc := w }

/-- `next`: `PC <- PC + 2` (R8, R140), a 16-bit sum that wraps in no reachable state (R25 (c): log entry 23). -/
def State.advance (s : State) : State := s.setPc (s.pc + 2)

/-- `skip`: `PC <- PC + 4` (R8, R140). -/
def State.skip (s : State) : State := s.setPc (s.pc + 4)

/-- `if c: skip else: next` (44_control_flow.md section 3). -/
def State.skipIf (s : State) (c : Bool) : State := if c then s.skip else s.advance

/-! ## Faults -/

/-- `raise`: `RUN <- Halted(reason)` and nothing else (60_exceptions.md R165, R166; D18: log entry 20). The next state of
every fault. There is no return from a fault (R167): only `stop` and `start` (Events.lean) leave the halted state. -/
def raise (reason : HaltReason) (s : State) : Result := .next (s.setRun (.halted reason))

/-- A memory instruction (43_index_memory.md R137): the bounds check of all the bytes it accesses comes before anything
is written, and `MemoryOutOfBounds` is raised if it fails; `done` is the state the instruction leaves in bounds. -/
def withSpan (base count : Nat) (s done : State) : Result :=
  if spanInMemory base count then .next done else raise .memoryOutOfBounds s

/-! ## The call stack -/

/-- Push (10_state.md R26): `STACK[SP] <- w; SP <- SP + 1`, or `StackOverflow` with 16 entries in use; `k` is what the
instruction does after it. `SP` is the depth (D28: log entry 25). -/
def withPush (s : State) (w : Word) (k : State → State) : Result :=
  if h : s.sp.val < stackDepth then
    .next (k { s with stack := s.stack.set s.sp.val w h, sp := ⟨s.sp.val + 1, Nat.succ_lt_succ h⟩ })
  else raise .stackOverflow s

/-- Pop (10_state.md R26): `SP <- SP - 1`, the value is `STACK[SP]`, or `StackUnderflow` with none in use. The slot keeps
its contents. -/
def withPop (s : State) (k : Word → State → State) : Result :=
  if h : 0 < s.sp.val then
    have h' : s.sp.val - 1 < 16 := by have := s.sp.isLt; omega
    .next (k (s.stack[s.sp.val - 1]) { s with sp := ⟨s.sp.val - 1, Nat.lt_succ_of_lt h'⟩ })
  else raise .stackUnderflow s

/-! ## The instruction fetch -/

/-- The fetch (60_exceptions.md R176, R54, R56): one test, `PC + 1 >= 4096`, before either byte is read; then the two
bytes at `PC` and `PC + 1`, or none. -/
def State.fetchBytes (s : State) : Option (Byte × Byte) :=
  if s.pc.toNat + 1 < memSize then some (Memory.read s.mem s.pc.toNat, Memory.read s.mem (s.pc.toNat + 1)) else none

/-- The fetched instruction word, big-endian (R54). -/
def State.fetchWord (s : State) : Option Word := s.fetchBytes.map fun b => wordOfBytes b.1 b.2

/-- Where an instruction placed for the next cycle goes: at `PC` if a fetch can succeed there, else at `PROG_BASE`. -/
def State.fetchAddress (s : State) : Nat := if s.pc.toNat + 1 < memSize then s.pc.toNat else progBase

/-- The state whose next step is a cycle that fetches the word `w`: stored big-endian at the fetch address, `RUN`
running, no key wait armed, nothing else placed on the timeline. Stands for the load of a program (log entry 7). -/
def State.placeWord (s : State) (w : Word) : State :=
  { s with
    mem := Memory.store s.mem s.fetchAddress [highByte w, lowByte w]
    pc := BitVec.ofNat 16 s.fetchAddress
    kw := none
    run := .running
    timeline := [] }

/-! ## The blit engine -/

/-- The pixel at column `x`, row `y`, both reduced (41_display.md R114). -/
def Frame.pixel (f : Frame) (x y : Nat) : Bool :=
  (f[y % 32]'(Nat.mod_lt y (by decide)))[x % 64]'(Nat.mod_lt x (by decide))

/-- The frame with the pixel at column `x`, row `y`, both reduced, inverted (R112, R114). -/
def Frame.toggle (f : Frame) (x y : Nat) : Frame :=
  f.set (y % 32)
    ((f[y % 32]'(Nat.mod_lt y (by decide))).set (x % 64) (!Frame.pixel f x y) (Nat.mod_lt x (by decide)))
    (Nat.mod_lt y (by decide))

/-- The frame so far and the collision so far. -/
abbrev Blit := Frame × Bool

/-- One sprite bit onto one pixel (R112): a 1 bit toggles it, and a set pixel that it toggles is a collision. -/
def blitPixel (x y : Nat) (bit : Bool) (acc : Blit) : Blit :=
  if bit then (Frame.toggle acc.1 x y, acc.2 || Frame.pixel acc.1 x y) else acc

/-- One sprite byte onto one row (R112, R113): bit 7 is the leftmost pixel (D24: log entry 17). -/
def blitRow (x y : Nat) (b : Byte) (acc : Blit) : Blit :=
  (List.range 8).foldl (fun acc c => blitPixel (x + c) y (b.getLsbD (7 - c)) acc) acc

/-- The sprite, consecutive bytes on consecutive rows, the first on row `y` (R112, R113). -/
def blitRows (x y : Nat) : List Byte → Blit → Blit
  | [], acc => acc
  | b :: rest, acc => blitRows x (y + 1) rest (blitRow x y b acc)

/-- The blit (R112): the frame after it, and whether any pixel went from set to unset. -/
def blit (f : Frame) (x y : Nat) (sprite : List Byte) : Blit := blitRows x y sprite (f, false)

/-- A clear frame (R111). -/
def Frame.clear : Frame := Vector.replicate 32 (Vector.replicate 64 false)

end Sys2Proof.Machine
end

