-- ==== Sys2Proof/Machine/Operands.lean ====
section
/-! DEFINITION. The operand forms of the instructions: immediates (30_encoding.md R73), the source of the shifts
(40_alu.md R99), the key test (42_keypad_timers.md R120), the glyph address (43_index_memory.md R132), the decimal digits
(R133), the register range `V0..VX` (R134, R135) and the computed target (44_control_flow.md R148). -/

namespace Sys2Proof.Machine

/-- `zext_16(NNN)` (R73). -/
def zext16 (nnn : BitVec 12) : Word := nnn.setWidth 16

/-- A register zero-extended to the width of `I` (R131). -/
def zextByte (b : Byte) : Word := b.setWidth 16

/-- The address in `I` as a natural number (R53). -/
def State.indexAddr (s : State) : Nat := s.index.toNat

/-- The source of a shift for a value of `SHIFT_SOURCE` (R99, R101). -/
def shiftSourceByte (src : ShiftSource) (x y : Reg) (s : State) : Byte :=
  match src with
  | .vx => s.reg x
  | .vy => s.reg y

/-- `k <= 15 and KEYS[k] = true` for a key code in a register (R120): a value above 15 names no key (the spec's
decision D17: log entry 14). -/
def State.keyPressed (s : State) (code : Byte) : Bool :=
  if h : code.toNat < 16 then s.keys[code.toNat] else false

/-- The address of a glyph: `FONT_BASE + GLYPH_BYTES * V[X]` (R132), not masked (D16: log entry 13). -/
def glyphAddress (digit : Byte) : Word := BitVec.ofNat 16 (fontBase + glyphBytes * digit.toNat)

/-- The three decimal digits of a byte, most significant first (R133; D25: log entry 18). -/
def bcdDigits (b : Byte) : List Byte :=
  [BitVec.ofNat 8 (b.toNat / 100), BitVec.ofNat 8 (b.toNat / 10 % 10), BitVec.ofNat 8 (b.toNat % 10)]

/-- How many registers `FX55` and `FX65` move: `X + 1` (R134). -/
def regCount (x : Reg) : Nat := x.val + 1

/-- The bytes of `V[0]` to `V[X]`, in order (R134). -/
def State.regsUpTo (s : State) (x : Reg) : List Byte := s.v.toList.take (regCount x)

/-- The first `count` registers loaded from consecutive addresses, lowest first, the others as they were (R135). -/
def loadBytesInto (m : Memory) (base : Nat) (v : Vector Byte 16) : Nat → Vector Byte 16
  | 0 => v
  | k + 1 => (loadBytesInto m base v k).setIfInBounds k (Memory.read m (base + k))

/-- `V[0]` to `V[X]` loaded from consecutive addresses (R135). -/
def State.loadRegs (s : State) (x : Reg) (base : Nat) : State :=
  { s with v := loadBytesInto s.mem base s.v (regCount x) }

/-- `if LOADSTORE_INCREMENTS_I: I <- base + X + 1` for a value of the parameter (R134, R135; D7). -/
def State.bumpIndex (s : State) (increments : Bool) (x : Reg) : State :=
  s.setIndex (if increments then BitVec.ofNat 16 (s.indexAddr + regCount x) else s.index)

/-- `NNN + V0`, a natural number 0..0x10FE stored without reduction (R148; D26: log entry 19). -/
def State.computedTarget (s : State) (nnn : BitVec 12) : Word := BitVec.ofNat 16 (nnn.toNat + (s.reg 0).toNat)

end Sys2Proof.Machine
end

