-- ==== Sys2Proof/Machine/Flags.lean ====
section
/-! DEFINITION. The flag computations (40_alu.md R97 to R101, R103). The one flag is `VF`; it is written as 0 or 1. -/

namespace Sys2Proof.Machine

/-- The byte written to `VF`: 1 or 0. -/
def flagByte (c : Bool) : Byte := if c then 1 else 0

/-- Carry of `a + b`: the exact sum is 256 or more (R97, R103). -/
def carry (a b : Byte) : Bool := decide (256 ≤ a.toNat + b.toNat)

/-- Not-borrow of `a - b`: `a >= b`, equality included (R98, R100, R103; D12: log entry 12). -/
def notBorrow (a b : Byte) : Bool := decide (b.toNat ≤ a.toNat)

/-- The bit a right shift by one shifts out: bit 0 (R99). -/
def shiftedOutRight (b : Byte) : Bool := b.getLsbD 0

/-- The bit a left shift by one shifts out: bit 7 (R101). -/
def shiftedOutLeft (b : Byte) : Bool := b.getLsbD 7

end Sys2Proof.Machine
end

