-- ==== Sys2Proof/Machine/Alu.lean ====
section
/-! DEFINITION. Register load and ALU instructions (40_alu.md). Operands are read before anything is written, the result
before the flag (R90, D11, D31: log entry 11). Every one ends with `next` and none raises a fault. -/

namespace Sys2Proof.Machine

/-- `6XNN`, `LD Vx, NN` (R91). -/
def execLdImm (x : Reg) (nn : Byte) (s : State) : Result := .next (s.setReg x nn).advance

/-- `7XNN`, `ADD Vx, NN` (R92): wraps modulo 256, `VF` is not written (D9: log entry 12). -/
def execAddImm (x : Reg) (nn : Byte) (s : State) : Result := .next (s.setReg x (s.reg x + nn)).advance

/-- `8XY0`, `LD Vx, Vy` (R93). -/
def execLdReg (x y : Reg) (s : State) : Result := .next (s.setReg x (s.reg y)).advance

/-- `8XY1`, `OR Vx, Vy` (R94): `VF` is not written (D8: log entry 12). -/
def execOrReg (x y : Reg) (s : State) : Result := .next (s.setReg x (s.reg x ||| s.reg y)).advance

/-- `8XY2`, `AND Vx, Vy` (R95): `VF` is not written (D8: log entry 12). -/
def execAndReg (x y : Reg) (s : State) : Result := .next (s.setReg x (s.reg x &&& s.reg y)).advance

/-- `8XY3`, `XOR Vx, Vy` (R96): `VF` is not written (D8: log entry 12). -/
def execXorReg (x y : Reg) (s : State) : Result := .next (s.setReg x (s.reg x ^^^ s.reg y)).advance

/-- `8XY4`, `ADD Vx, Vy` (R97). -/
def execAddReg (x y : Reg) (s : State) : Result :=
  .next (s.setRegFlag x (s.reg x + s.reg y) (flagByte (carry (s.reg x) (s.reg y)))).advance

/-- `8XY5`, `SUB Vx, Vy` (R98). -/
def execSub (x y : Reg) (s : State) : Result :=
  .next (s.setRegFlag x (s.reg x - s.reg y) (flagByte (notBorrow (s.reg x) (s.reg y)))).advance

/-- The effect of `8XY6` for a value of `SHIFT_SOURCE` (R99): a logical shift right by one. -/
def shrWith (src : ShiftSource) (x y : Reg) (s : State) : State :=
  let b := shiftSourceByte src x y s
  (s.setRegFlag x (b >>> 1) (flagByte (shiftedOutRight b))).advance

/-- `8XY6`, `SHR Vx, Vy` (R99). -/
def execShr (x y : Reg) (s : State) : Result := .next (shrWith Config.shiftSource x y s)

/-- `8XY7`, `SUBN Vx, Vy` (R100). -/
def execSubn (x y : Reg) (s : State) : Result :=
  .next (s.setRegFlag x (s.reg y - s.reg x) (flagByte (notBorrow (s.reg y) (s.reg x)))).advance

/-- The effect of `8XYE` for a value of `SHIFT_SOURCE` (R101): a shift left by one. -/
def shlWith (src : ShiftSource) (x y : Reg) (s : State) : State :=
  let b := shiftSourceByte src x y s
  (s.setRegFlag x (b <<< 1) (flagByte (shiftedOutLeft b))).advance

/-- `8XYE`, `SHL Vx, Vy` (R101). -/
def execShl (x y : Reg) (s : State) : Result := .next (shlWith Config.shiftSource x y s)

/-- The effect of `CXNN` for a drawn byte (R102). -/
def rndWith (draw : Byte) (x : Reg) (nn : Byte) (s : State) : State := (s.setReg x (draw &&& nn)).advance

/-- `CXNN`, `RND Vx, NN` (R102): each execution takes a fresh byte of `Config.rnd` (log entry 3). -/
def execRnd (x : Reg) (nn : Byte) (s : State) : Result := .next (rndWith (Config.rnd s.draws) x nn s.drawn)

end Sys2Proof.Machine
end

