-- ==== Sys2Proof/Machine/Control.lean ====
section
/-! DEFINITION. Control-transfer instructions (44_control_flow.md). `PC` is the address of the executing instruction
(R140). No target is checked (R149, D19: log entry 15). -/

namespace Sys2Proof.Machine

/-- `00EE`, `RET` (R141): the popped address is used as it is. -/
def execRet (s : State) : Result := withPop s fun target t => t.setPc target

/-- `1NNN`, `JP NNN` (R142). -/
def execJp (nnn : BitVec 12) (s : State) : Result := .next (s.setPc (zext16 nnn))

/-- `2NNN`, `CALL NNN` (R143): pushes the address of the instruction after it. -/
def execCall (nnn : BitVec 12) (s : State) : Result := withPush s (s.pc + 2) fun t => t.setPc (zext16 nnn)

/-- `3XNN`, `SE Vx, NN` (R144). -/
def execSeImm (x : Reg) (nn : Byte) (s : State) : Result := .next (s.skipIf (s.reg x == nn))

/-- `4XNN`, `SNE Vx, NN` (R145). -/
def execSneImm (x : Reg) (nn : Byte) (s : State) : Result := .next (s.skipIf (s.reg x != nn))

/-- `5XY0`, `SE Vx, Vy` (R146). -/
def execSeReg (x y : Reg) (s : State) : Result := .next (s.skipIf (s.reg x == s.reg y))

/-- `9XY0`, `SNE Vx, Vy` (R147). -/
def execSneReg (x y : Reg) (s : State) : Result := .next (s.skipIf (s.reg x != s.reg y))

/-- `BNNN`, `JP V0, NNN` (R148). -/
def execJpV0 (nnn : BitVec 12) (s : State) : Result := .next (s.setPc (s.computedTarget nnn))

end Sys2Proof.Machine
end

