-- ==== Sys2Proof/Machine/Display.lean ====
section
/-! DEFINITION. Display instructions (41_display.md). -/

namespace Sys2Proof.Machine

/-- `00E0`, `CLS` (R111): `VF` is not written. -/
def execCls (s : State) : Result := .next (s.setFb Frame.clear).advance

/-- The blit of `DXYN` with all its operands read from the state before anything is written (R112, R117). -/
def State.spriteBlit (s : State) (x y : Reg) (n : BitVec 4) : Blit :=
  blit s.fb (s.reg x).toNat (s.reg y).toNat (Memory.load s.mem s.indexAddr n.toNat)

/-- `DXYN`, `DRW Vx, Vy, N` (R112): the bounds check of all `N` bytes first (R115), then the blit, then `VF`, which is
always written. -/
def execDrw (x y : Reg) (n : BitVec 4) (s : State) : Result :=
  withSpan s.indexAddr n.toNat s
    ((s.setFb (s.spriteBlit x y n).1).setReg vf (flagByte (s.spriteBlit x y n).2)).advance

end Sys2Proof.Machine
end

