-- ==== Sys2Proof/Machine/Index.lean ====
section
/-! DEFINITION. Index-register and memory instructions (43_index_memory.md). A memory instruction checks its highest
address before it writes anything (R137). -/

namespace Sys2Proof.Machine

/-- `ANNN`, `LD I, NNN` (R130). -/
def execLdI (nnn : BitVec 12) (s : State) : Result := .next (s.setIndex (zext16 nnn)).advance

/-- `FX1E`, `ADD I, Vx` (R131): modulo 65536, no flag, no bounds check here (D10: log entry 12). -/
def execAddI (x : Reg) (s : State) : Result := .next (s.setIndex (s.index + zextByte (s.reg x))).advance

/-- `FX29`, `LD F, Vx` (R132). -/
def execLdF (x : Reg) (s : State) : Result := .next (s.setIndex (glyphAddress (s.reg x))).advance

/-- `FX33`, `LD B, Vx` (R133). -/
def execLdB (x : Reg) (s : State) : Result :=
  withSpan s.indexAddr 3 s (s.setMem (Memory.store s.mem s.indexAddr (bcdDigits (s.reg x)))).advance

/-- The effect of `FX55` in bounds, for a value of `LOADSTORE_INCREMENTS_I` (R134). -/
def stRegsWith (increments : Bool) (x : Reg) (s : State) : State :=
  ((s.setMem (Memory.store s.mem s.indexAddr (s.regsUpTo x))).bumpIndex increments x).advance

/-- `FX55`, `LD [I], Vx` (R134). -/
def execStRegs (x : Reg) (s : State) : Result :=
  withSpan s.indexAddr (regCount x) s (stRegsWith Config.loadStoreIncrementsI x s)

/-- The effect of `FX65` in bounds, for a value of `LOADSTORE_INCREMENTS_I` (R135). -/
def ldRegsWith (increments : Bool) (x : Reg) (s : State) : State :=
  ((s.loadRegs x s.indexAddr).bumpIndex increments x).advance

/-- `FX65`, `LD Vx, [I]` (R135). -/
def execLdRegs (x : Reg) (s : State) : Result :=
  withSpan s.indexAddr (regCount x) s (ldRegsWith Config.loadStoreIncrementsI x s)

end Sys2Proof.Machine
end

