-- ==== Sys2Proof/Machine/Keypad.lean ====
section
/-! DEFINITION. Keypad and timer instructions (42_keypad_timers.md): what the executor does. The tick, the key events and
the resolution of a key wait are in Events.lean. -/

namespace Sys2Proof.Machine

/-- `EX9E`, `SKP Vx` (R120). -/
def execSkp (x : Reg) (s : State) : Result := .next (s.skipIf (s.keyPressed (s.reg x)))

/-- `EXA1`, `SKNP Vx` (R121). -/
def execSknp (x : Reg) (s : State) : Result := .next (s.skipIf (!s.keyPressed (s.reg x)))

/-- `FX07`, `LD Vx, DT` (R123). -/
def execLdVxDt (x : Reg) (s : State) : Result := .next (s.setReg x s.dt).advance

/-- `FX0A`, `LD Vx, K` (R122): arms the latch with the destination register; `PC` is left at this instruction. The wait
ends with a `keyDown` (R174, R177). -/
def execLdVxK (x : Reg) (s : State) : Result := .next (s.setKw (some x))

/-- `FX15`, `LD DT, Vx` (R124). -/
def execLdDtVx (x : Reg) (s : State) : Result := .next (s.setDt (s.reg x)).advance

/-- `FX18`, `LD ST, Vx` (R125). -/
def execLdStVx (x : Reg) (s : State) : Result := .next (s.setSt (s.reg x)).advance

end Sys2Proof.Machine
end

