-- ==== Sys2Proof/WellFormed.lean ====
section
/-! DEFINITION. What must be checked before it reaches the block.

An instruction needs no check: R71 and R73 bound every operand by the width of its field, and those bounds are the types
of the constructors' arguments (Syntax.lean), so every `Instr` is well-formed. A key code needs none either (R174: "the
command's argument type is code: 0..15"). A 16-bit word that is no instruction is refused by the decoder, by name
(Decode.lean). What is left is the program image of `start` (70_reset_and_hazards.md R202). -/

namespace Sys2Proof

/-- R202: a program image is not empty. -/
def romNonempty (rom : List Byte) : Bool := !rom.isEmpty

/-- R202: a program image fits between `PROG_BASE` and the end of memory. -/
def romFits (rom : List Byte) : Bool := decide (rom.length ≤ maxRom)

/-- R202: the images that `start` can be given: 1 to 3584 bytes, any byte values, odd lengths included. -/
def romWellFormed (rom : List Byte) : Bool := romNonempty rom && romFits rom

end Sys2Proof
end

