-- ==== Sys2Proof/Machine/Events.lean ====
section
/-! DEFINITION. The steps of the timer and of the host (60_exceptions.md sections 3 to 5): each a total function of the
state; an event that is not listed for the run state is ignored (R172; D22, D30: log entry 21). -/

namespace Sys2Proof.Machine

/-- R173: "Each tick decrements each non-zero counter by one." -/
def decrement (b : Byte) : Byte := if b = 0 then 0 else b - 1

/-- `Tick` (R173): only in `Running`, whether or not a key wait is armed (D1: log entry 16). -/
def tick (s : State) : State :=
  if s.run = .running then (s.setDt (decrement s.dt)).setSt (decrement s.st) else s

/-- The completion of a key wait (R177): the code goes to the awaited register, the latch is cleared, and the deferred
`PC <- PC + 2` of the `FX0A` is done (D2: log entry 16). -/
def resolveWait (k : Key) (s : State) : State :=
  match s.kw with
  | none => s
  | some x => ((s.setReg x (BitVec.ofNat 8 k.val)).setKw none).advance

/-- `keyDown(k)` (R174): the key is down in `Running` and `Paused`; only in `Running` does it resolve an armed latch. -/
def keyDown (k : Key) (s : State) : State :=
  match s.run with
  | .running => resolveWait k (s.setKey k true)
  | .paused => s.setKey k true
  | .idle => s
  | .halted _ => s

/-- `keyUp(k)` (R175): a simple state update, also while a wait is armed. -/
def keyUp (k : Key) (s : State) : State :=
  match s.run with
  | .running => s.setKey k false
  | .paused => s.setKey k false
  | .idle => s
  | .halted _ => s

/-- The reset with a program image (70_reset_and_hazards.md R201): every item of R20 at its reset value, the image at
`PROG_BASE`. The model's own two fields are no state of the block and stay. -/
def resetWith (rom : List Byte) (s : State) : State :=
  { State.reset with mem := Memory.image progBase rom, draws := s.draws, timeline := s.timeline }

/-- `start(rom)` (R169): valid from `Idle`; an image that fails R202 never reaches it and changes nothing (log entry
26). -/
def start (rom : List Byte) (s : State) : State :=
  if s.run = .idle ∧ romWellFormed rom = true then resetWith rom s else s

/-- `stop` (R170): `RUN <- Idle`. The other state is dead from then on and is kept as it is (log entry 8). -/
def stop (s : State) : State := s.setRun .idle

/-- `togglePause` (R171). -/
def togglePause (s : State) : State :=
  match s.run with
  | .running => s.setRun .paused
  | .paused => s.setRun .running
  | .idle => s
  | .halted _ => s

end Sys2Proof.Machine
end

