-- ==== Sys2Proof/Machine/Cycle.lean ====
section
/-! DEFINITION. The instruction cycle (60_exceptions.md R176) and the one timeline on which all steps are ordered
(R178). -/

namespace Sys2Proof.Machine

/-- `Cycle` (R176). The order of checks: run state, latch, fetch bounds, decode, the instruction's own check. -/
def cycle (s : State) : Result :=
  if s.run = .running then
    match s.kw with
    | some _ => .next s
    | none =>
      match s.fetchBytes with
      | none => raise .memoryOutOfBounds s
      | some (hi, lo) =>
        match decode [hi, lo] with
        | .ok (i, _) => exec i s
        | .error _ => raise .invalidOpcode s
  else .next s

/-- One event (00_scope.md R10). -/
def perform (e : Event) (s : State) : Result :=
  match e with
  | .cycle => cycle s
  | .tick => .next (tick s)
  | .keyDown k => .next (keyDown k s)
  | .keyUp k => .next (keyUp k s)
  | .start rom => .next (start rom s)
  | .stop => .next (stop s)
  | .togglePause => .next (togglePause s)

/-- The next step on the timeline (R178): the oldest event placed there, or a cycle when none is (log entry 2). -/
def advanceTimeline (s : State) : Result :=
  match s.timeline with
  | [] => cycle s
  | e :: rest => perform e { s with timeline := rest }

end Sys2Proof.Machine
end

