-- ==== Sys2Proof/Machine/Step.lean ====
section
/-! DEFINITION. One step of the machine, and the state in which a given word is the next instruction. -/

namespace Sys2Proof.Machine

/-- One atomic step of the block (60_exceptions.md R178). -/
def step : State → Host.Outcome State Fault Refusal := advanceTimeline

/-- The state `s` with the instruction whose `nbits` bits are `w` (bits above them are 0) where the next step fetches
its instruction. -/
def State.withFetchWord (s : State) (nbits w : Nat) : State := s.placeWord (BitVec.ofNat 16 (w % 2 ^ nbits))

end Sys2Proof.Machine
end

