-- ==== Sys2Proof/Machine/Outputs.lean ====
section
/-! DEFINITION. The outputs of the block, values that can be read between any two steps (60_exceptions.md R184, R185).
No instruction reads them. -/

namespace Sys2Proof.Machine

/-- The frame, "64×32 boolean grid" (R184 (a)). -/
def State.frameOutput (s : State) : Frame := s.fb

/-- The sound-timer byte (R184 (b)). -/
def State.soundByte (s : State) : Byte := s.st

/-- The buzzer line: `ST != 0` (R184 (b)). -/
def State.buzzer (s : State) : Bool := s.st != 0

/-- The run state (R184 (c)). -/
def State.runOutput (s : State) : RunState := s.run

/-- Whether a key is awaited, and for which register (R185). -/
def State.awaitedRegister (s : State) : Option Reg := s.kw

/-- The set of pressed keys (R185). -/
def State.pressedKeys (s : State) : List Key := (List.finRange 16).filter fun k => s.keys[k]

/-- The reason of a halt (R185). -/
def State.haltError (s : State) : Option HaltReason :=
  match s.run with
  | .halted r => some r
  | .idle => none
  | .running => none
  | .paused => none

end Sys2Proof.Machine
end

