-- ==== Sys2Proof/Safety.lean ====
section
/-! DEFINITION. The terms claims are stated in: how a run ends (70_reset_and_hazards.md R205), when it waits
(60_exceptions.md R186), the invariant every step keeps, what each instruction may write (the access matrix, 10_state.md
R36), which pixels a sprite covers (41_display.md R112 to R114), and which states a program cannot tell apart. -/

namespace Sys2Proof.Machine

/-! ## Ends and waits -/

/-- A failed run (R205 (b)): a fault has halted it. -/
def State.Failed (s : State) : Prop := ∃ r, s.run = .halted r

/-- A finished program (R205 (c)): it stands at a jump to itself. -/
def State.Finished (s : State) : Prop :=
  s.run = .running ∧ s.kw = none ∧
    ∃ a : BitVec 12, s.pc.toNat = a.toNat ∧ s.fetchWord = some (BitVec.ofNat 16 (0x1000 + a.toNat))

/-- The key wait (R186): the executor is suspended and nothing is wrong. -/
def State.Waiting (s : State) : Prop := s.run = .running ∧ s.kw ≠ none

/-- What D0 states of `PC` (10_state.md R25 (b)): even, and within `[0x200, 4096)`. The hardware does not enforce it, so it
is no part of `State.Inv`. -/
def State.PcWellPlaced (s : State) : Prop := s.pc.toNat % 2 = 0 ∧ progBase ≤ s.pc.toNat ∧ s.pc.toNat < memSize

/-! ## The invariant -/

/-- What every step keeps. Memory is in canonical form; `PC` never passes 0x10FE (R25 (c)); a live return address is at
most 0x1000 (44_control_flow.md R141); the latch is armed only while `PC` stands at the key-wait instruction that armed it
(10_state.md R30); a halted run awaits no key (60_exceptions.md R176: the cycle that faults found the latch empty). -/
structure State.Inv (s : State) : Prop where
  memWf : Memory.wf s.mem = true
  pcBound : s.pc.toNat ≤ 0x10FE
  stackBound : ∀ k : Fin 16, k.val < s.sp.val → s.stack[k].toNat ≤ 0x1000
  waitsAtKeyWait : ∀ x, s.kw = some x → ∃ w, s.fetchWord = some w ∧ decodeWord w = .ok (.ldVxK x)
  haltedAwaitsNoKey : ∀ r, s.run = .halted r → s.kw = none

/-! ## The access matrix -/

/-- The general registers an instruction writes: its destination, and `VF` where it is written as the flag (R22, R36).
`FX0A` writes none in its own cycle (42_keypad_timers.md R122). -/
def writesReg (i : Instr) (r : Reg) : Bool :=
  match i with
  | .ldImm x _ | .addImm x _ | .ldReg x _ | .orReg x _ | .andReg x _ | .xorReg x _ | .rnd x _ | .ldVxDt x => r == x
  | .addReg x _ | .sub x _ | .shr x _ | .subn x _ | .shl x _ => r == x || r == vf
  | .drw _ _ _ => r == vf
  | .ldRegs x => decide (r ≤ x)
  | .cls | .ret | .jp _ | .call _ | .seImm _ _ | .sneImm _ _ | .seReg _ _ | .sneReg _ _ | .ldI _ | .jpV0 _ | .skp _
  | .sknp _ | .ldVxK _ | .ldDtVx _ | .ldStVx _ | .addI _ | .ldF _ | .ldB _ | .stRegs _ => false

/-- The bytes of memory an instruction stores to: the first address and how many (20_memory.md R64). The address is the
one the meaning uses, `State.indexAddr`. -/
def storesTo (i : Instr) (s : State) : Option (Nat × Nat) :=
  match i with
  | .ldB _ => some (s.indexAddr, 3)
  | .stRegs x => some (s.indexAddr, regCount x)
  | .cls | .ret | .jp _ | .call _ | .seImm _ _ | .sneImm _ _ | .seReg _ _ | .ldImm _ _ | .addImm _ _ | .ldReg _ _
  | .orReg _ _ | .andReg _ _ | .xorReg _ _ | .addReg _ _ | .sub _ _ | .shr _ _ | .subn _ _ | .shl _ _ | .sneReg _ _
  | .ldI _ | .jpV0 _ | .rnd _ _ | .drw _ _ _ | .skp _ | .sknp _ | .ldVxDt _ | .ldVxK _ | .ldDtVx _ | .ldStVx _
  | .addI _ | .ldF _ | .ldRegs _ => none

/-- The instructions in the matrix's column for `PC`: those that do not simply add 2 to it (R36; `FX0A`
keeps it). -/
def writesPc (i : Instr) : Bool :=
  match i with
  | .ret | .jp _ | .call _ | .seImm _ _ | .sneImm _ _ | .seReg _ _ | .sneReg _ _ | .jpV0 _ | .skp _ | .sknp _
  | .ldVxK _ => true
  | .cls | .ldImm _ _ | .addImm _ _ | .ldReg _ _ | .orReg _ _ | .andReg _ _ | .xorReg _ _ | .addReg _ _ | .sub _ _
  | .shr _ _ | .subn _ _ | .shl _ _ | .ldI _ | .rnd _ _ | .drw _ _ _ | .ldVxDt _ | .ldDtVx _ | .ldStVx _ | .addI _
  | .ldF _ | .ldB _ | .stRegs _ | .ldRegs _ => false

/-- The instructions that may write `I` (R23): `ANNN`, `FX1E`, `FX29`, and `FX55`, `FX65` if they increment it. -/
def writesIndex : Instr → Prop
  | .ldI _ | .addI _ | .ldF _ => True
  | .stRegs _ | .ldRegs _ => Config.loadStoreIncrementsI = true
  | .cls | .ret | .jp _ | .call _ | .seImm _ _ | .sneImm _ _ | .seReg _ _ | .ldImm _ _ | .addImm _ _ | .ldReg _ _
  | .orReg _ _ | .andReg _ _ | .xorReg _ _ | .addReg _ _ | .sub _ _ | .shr _ _ | .subn _ _ | .shl _ _ | .sneReg _ _
  | .jpV0 _ | .rnd _ _ | .drw _ _ _ | .skp _ | .sknp _ | .ldVxDt _ | .ldVxK _ | .ldDtVx _ | .ldStVx _ | .ldB _ => False

/-! ## The sprite -/

/-- The pixel at column `col`, row `row` is under a 1 bit of the sprite that `DXYN` draws from state `s`: some sprite row
`r < N` and sprite column `c < 8` fall on it, coordinates wrapped, and the bit is set, bit 7 leftmost (R112 to R114). -/
def State.spriteLit (s : State) (x y : Reg) (n : BitVec 4) (col row : Nat) : Bool :=
  (List.range n.toNat).any fun r => (List.range 8).any fun c =>
    decide (((s.reg y).toNat + r) % 32 = row) && decide (((s.reg x).toNat + c) % 64 = col) &&
      (Memory.read s.mem (s.index.toNat + r)).getLsbD (7 - c)

/-! ## Operands that depend on an open parameter -/

/-- The number in the register that a shift reads: `V[X]` or `V[Y]`, as the open parameter `SHIFT_SOURCE` says (40_alu.md
R99). -/
def State.shiftOperand (s : State) (x y : Reg) : Nat :=
  (if Config.shiftSource = .vx then s.reg x else s.reg y).toNat

/-! ## States a program cannot tell apart -/

/-- The states agree but for call-stack slots that are not in use (10_state.md R26). -/
def SameButDeadSlots (s s' : State) : Prop :=
  s' = { s with stack := s'.stack } ∧ ∀ k : Fin 16, k.val < s.sp.val → s'.stack[k] = s.stack[k]

end Sys2Proof.Machine
end

