-- ==== Sys2Proof/Certificates/Slice0/Obligations.lean ====
section
/-! DEFINITION. The statements about the block, each from numbered rules of spec/. An instruction's statement gives the
word it is encoded as, the state `exec` answers with, and that everything else is unchanged (`t = { s with … := t.… }`
names the components that may differ). A statement that rests on one of the spec's own decisions (92_eei_decisions.md) or
on a log entry of the model says so. -/

open Sys2Proof Sys2Proof.Machine

/-! ## Encoding and decoding -/

/-- Decode and encode agree, for every instruction with every operand, as words and as the bytes in memory followed by
anything (30_encoding.md R70 to R73, R75). -/
def Obligations.EncodeThenDecodeIsIdentity : Prop :=
  ∀ (i : Instr) (rest : List Byte), decodeWord (encode i) = .ok i ∧ decode (encodeBytes i ++ rest) = .ok (i, rest)

/-- Every word has one meaning: no two words decode to one instruction (30_encoding.md R74). -/
def Obligations.DecodeThenEncodeIsIdentity : Prop :=
  ∀ (w : Word) (i : Instr), decodeWord w = .ok i → encode i = w

/-- The opcode table has 34 rows and no word selects two of them (30_encoding.md R74, R75). -/
def Obligations.OpcodeRowsAreDisjoint : Prop :=
  opcodeTable.length = 34 ∧
    opcodeTable.Pairwise fun r q => ∀ w : Word, ¬(r.selects w = true ∧ q.selects w = true)

/-- The decoder reads a word as an instruction of exactly the row of the opcode table that the word selects by `mask` and
`match` (30_encoding.md R74; that all sixteen bits take part is the spec's decision D14). -/
def Obligations.DecoderSelectsItsTableRow : Prop :=
  ∀ w : Word,
    (∀ r ∈ opcodeTable, r.selects w = true → ∃ i, decodeWord w = .ok i ∧ rowOf i = r) ∧
    (∀ i, decodeWord w = .ok i → rowOf i ∈ opcodeTable ∧ (rowOf i).selects w = true)

/-- The words that are no instruction are exactly the six groups of 30_encoding.md R76 (the spec's decisions D13, D14). -/
def Obligations.RejectedWordsAreTheSixGroups : Prop :=
  ∀ w : Word,
    (∃ e, decodeWord w = .error e) ↔
      (w.toNat / 4096 = 0x0 ∧ w ≠ 0x00E0 ∧ w ≠ 0x00EE) ∨
      (w.toNat / 4096 = 0x5 ∧ w.toNat % 16 ≠ 0) ∨
      (w.toNat / 4096 = 0x8 ∧ w.toNat % 16 ∈ [0x8, 0x9, 0xA, 0xB, 0xC, 0xD, 0xF]) ∨
      (w.toNat / 4096 = 0x9 ∧ w.toNat % 16 ≠ 0) ∨
      (w.toNat / 4096 = 0xE ∧ w.toNat % 256 ∉ [0x9E, 0xA1]) ∨
      (w.toNat / 4096 = 0xF ∧ w.toNat % 256 ∉ [0x07, 0x0A, 0x15, 0x18, 0x1E, 0x29, 0x33, 0x55, 0x65])

/-- The words 95_test_vectors.md section 2.1 writes out decode as it says, one or more of every family (a sanity
statement). -/
def Obligations.WorkedWordsDecode : Prop :=
  decodeWord 0x00E0 = .ok .cls ∧ decodeWord 0x00EE = .ok .ret ∧ decodeWord 0x1ABC = .ok (.jp 0xABC) ∧
  decodeWord 0x2FFF = .ok (.call 0xFFF) ∧ decodeWord 0x3A7F = .ok (.seImm 10 0x7F) ∧
  decodeWord 0x6005 = .ok (.ldImm 0 5) ∧ decodeWord 0x8AB4 = .ok (.addReg 10 11) ∧
  decodeWord 0x8ABE = .ok (.shl 10 11) ∧ decodeWord 0xA123 = .ok (.ldI 0x123) ∧ decodeWord 0xB300 = .ok (.jpV0 0x300) ∧
  decodeWord 0xC00F = .ok (.rnd 0 0x0F) ∧ decodeWord 0xD125 = .ok (.drw 1 2 5) ∧ decodeWord 0xE39E = .ok (.skp 3) ∧
  decodeWord 0xF30A = .ok (.ldVxK 3) ∧ decodeWord 0xFF55 = .ok (.stRegs 15) ∧
  decodeWord 0x0000 = .error .machineRoutine ∧ decodeWord 0x5121 = .error .seRegNibble ∧
  decodeWord 0x8AB8 = .error .aluFunction ∧ decodeWord 0x9AB1 = .error .sneRegNibble ∧
  decodeWord 0xE39F = .error .keyFunction ∧ decodeWord 0xF375 = .error .miscFunction

/-! ## The instruction cycle and the timeline -/

/-- The fetched word is big-endian (20_memory.md R54), whatever the parity of `PC` (R56: the spec's decision D19, log entry
15); there is one exactly when `PC + 1` is in memory (the bounds test of R56 and 60_exceptions.md R176). -/
def Obligations.FetchIsBigEndian : Prop :=
  ∀ s : State,
    (s.pc.toNat + 1 < 4096 → ∃ w, s.fetchWord = some w ∧
      w.toNat = 256 * (Memory.read s.mem s.pc.toNat).toNat + (Memory.read s.mem (s.pc.toNat + 1)).toNat) ∧
    (4096 ≤ s.pc.toNat + 1 → s.fetchWord = none)

/-- A step runs the decoded instruction: in `Running` with no key awaited, when the word at `PC` decodes to `i`, a step with
nothing placed on the timeline, or with a cycle placed next, is `exec` of `i` (60_exceptions.md R176; that a step with
nothing placed is a cycle is the model's choice, log entry 2). -/
def Obligations.StepRunsTheDecodedInstruction : Prop :=
  ∀ (s : State) (w : Word) (i : Instr),
    s.run = .running → s.kw = none → s.fetchWord = some w → decodeWord w = .ok i →
      (s.timeline = [] → step s = exec i s) ∧
      (∀ rest, s.timeline = .cycle :: rest → step s = exec i { s with timeline := rest })

/-- The gates of a cycle, in their order: not in `Running`, or with a key awaited, it does nothing at all
(60_exceptions.md R176, R180). -/
def Obligations.CycleIsGatedByRunAndLatch : Prop :=
  ∀ s : State, (s.run ≠ .running ∨ s.kw ≠ none) → cycle s = .next s

/-- Events are performed one at a time in the order they were placed, and no step adds or drops one (60_exceptions.md
R178; that the model holds them in a list is log entry 2). -/
def Obligations.TimelineIsPerformedInArrivalOrder : Prop :=
  ∀ (s : State) (e : Event) (rest : List Event), s.timeline = e :: rest →
    ∃ t, step s = .next t ∧ perform e { s with timeline := rest } = .next t ∧ t.timeline = rest

/-- No instruction is refused and no step ends the machine: every meaning and every step answers a next state, in every
state (faults are next states: log entry 1). -/
def Obligations.EveryStepAnswersANextState : Prop :=
  (∀ (i : Instr) (s : State), ∃ t, exec i s = .next t) ∧ (∀ s : State, ∃ t, step s = .next t)

/-! ## Faults -/

/-- `InvalidOpcode` is raised exactly when the fetched word selects no row of the opcode table, at any `PC` at which the
fetch succeeds (60_exceptions.md R162). -/
def Obligations.InvalidOpcodeIsRaisedExactly : Prop :=
  ∀ s : State, s.run = .running → s.kw = none →
    ∃ t, cycle s = .next t ∧
      (t.run = .halted .invalidOpcode ↔ ∃ w, s.fetchWord = some w ∧ ∀ r ∈ opcodeTable, r.selects w = false)

/-- `MemoryOutOfBounds` is raised exactly in the cases (a) to (d) of 60_exceptions.md R161, and by no other
instruction. -/
def Obligations.MemoryOutOfBoundsIsRaisedExactly : Prop :=
  ∀ s : State, s.run = .running → s.kw = none →
    ∃ t, cycle s = .next t ∧
      (t.run = .halted .memoryOutOfBounds ↔
        4096 ≤ s.pc.toNat + 1 ∨
        ∃ w i, s.fetchWord = some w ∧ decodeWord w = .ok i ∧
          ((∃ x y n, i = .drw x y n ∧ 0 < n.toNat ∧ 4096 ≤ s.index.toNat + n.toNat - 1) ∨
           (∃ x, i = .ldB x ∧ 4096 ≤ s.index.toNat + 2) ∨
           (∃ x, (i = .stRegs x ∨ i = .ldRegs x) ∧ 4096 ≤ s.index.toNat + x.val)))

/-- `StackOverflow` is raised exactly by `2NNN` with 16 entries in use, and then no 17th frame is recorded;
`StackUnderflow` exactly by `00EE` with none in use (60_exceptions.md R163, R164). -/
def Obligations.StackFaultsAreRaisedExactly : Prop :=
  ∀ s : State, s.run = .running → s.kw = none →
    ∃ t, cycle s = .next t ∧
      (t.run = .halted .stackOverflow ↔
        ∃ w nnn, s.fetchWord = some w ∧ decodeWord w = .ok (.call nnn) ∧ s.sp.val = 16) ∧
      (t.run = .halted .stackOverflow → t.stack = s.stack ∧ t.sp = s.sp) ∧
      (t.run = .halted .stackUnderflow ↔
        ∃ w, s.fetchWord = some w ∧ decodeWord w = .ok .ret ∧ s.sp.val = 0)

/-- Faults are precise: a cycle that halts the run changes `RUN` and nothing else (60_exceptions.md R165, R166; that the
other state is untouched is the spec's decision D18). -/
def Obligations.FaultsChangeOnlyTheRunState : Prop :=
  ∀ (s t : State) (r : HaltReason), s.run = .running → cycle s = .next t → t.run = .halted r →
    t = { s with run := .halted r }

/-- `Halted` is terminal: whatever events are placed, as long as none is a `stop`, any number of steps changes nothing but
the timeline (60_exceptions.md R167; that ticks and key events are ignored too is the spec's decision D22). -/
def Obligations.HaltedIsTerminal : Prop :=
  ∀ (n : Nat) (s : State) (r : HaltReason), s.run = .halted r → (∀ e ∈ s.timeline, e ≠ .stop) →
    Sys2Proof.core.run n s = .next { s with timeline := s.timeline.drop n }

/-! ## Load and ALU instructions (40_alu.md) -/

/-- `6XNN` (R91). -/
def Obligations.LoadImmediateResult : Prop :=
  ∀ (x : Reg) (nn : Byte) (s : State),
    decodeWord (BitVec.ofNat 16 (0x6000 + 0x100 * x.val + nn.toNat)) = .ok (.ldImm x nn) ∧
    ∃ t, exec (.ldImm x nn) s = .next t ∧ t.reg x = nn ∧ (∀ r, r ≠ x → t.reg r = s.reg r) ∧ t.pc = s.pc + 2 ∧
      t = { s with v := t.v, pc := t.pc }

/-- `7XNN` (R92): wraps modulo 256; that `VF` is not written is the spec's decision D9. -/
def Obligations.AddImmediateWrapsWithoutFlag : Prop :=
  ∀ (x : Reg) (nn : Byte) (s : State),
    decodeWord (BitVec.ofNat 16 (0x7000 + 0x100 * x.val + nn.toNat)) = .ok (.addImm x nn) ∧
    ∃ t, exec (.addImm x nn) s = .next t ∧ (t.reg x).toNat = ((s.reg x).toNat + nn.toNat) % 256 ∧
      (∀ r, r ≠ x → t.reg r = s.reg r) ∧ t.pc = s.pc + 2 ∧ t = { s with v := t.v, pc := t.pc }

/-- `8XY0` (R93). -/
def Obligations.CopyRegisterResult : Prop :=
  ∀ (x y : Reg) (s : State),
    decodeWord (BitVec.ofNat 16 (0x8000 + 0x100 * x.val + 0x10 * y.val)) = .ok (.ldReg x y) ∧
    ∃ t, exec (.ldReg x y) s = .next t ∧ t.reg x = s.reg y ∧ (∀ r, r ≠ x → t.reg r = s.reg r) ∧ t.pc = s.pc + 2 ∧
      t = { s with v := t.v, pc := t.pc }

/-- `8XY1`, `8XY2`, `8XY3` (R94, R95, R96), bit by bit; that `VF` is not written is the spec's decision D8. -/
def Obligations.LogicOperationsWithoutFlag : Prop :=
  ∀ (x y : Reg) (s : State),
    (decodeWord (BitVec.ofNat 16 (0x8001 + 0x100 * x.val + 0x10 * y.val)) = .ok (.orReg x y) ∧
      ∃ t, exec (.orReg x y) s = .next t ∧
        (∀ k < 8, (t.reg x).getLsbD k = ((s.reg x).getLsbD k || (s.reg y).getLsbD k)) ∧
        (∀ r, r ≠ x → t.reg r = s.reg r) ∧ t.pc = s.pc + 2 ∧ t = { s with v := t.v, pc := t.pc }) ∧
    (decodeWord (BitVec.ofNat 16 (0x8002 + 0x100 * x.val + 0x10 * y.val)) = .ok (.andReg x y) ∧
      ∃ t, exec (.andReg x y) s = .next t ∧
        (∀ k < 8, (t.reg x).getLsbD k = ((s.reg x).getLsbD k && (s.reg y).getLsbD k)) ∧
        (∀ r, r ≠ x → t.reg r = s.reg r) ∧ t.pc = s.pc + 2 ∧ t = { s with v := t.v, pc := t.pc }) ∧
    (decodeWord (BitVec.ofNat 16 (0x8003 + 0x100 * x.val + 0x10 * y.val)) = .ok (.xorReg x y) ∧
      ∃ t, exec (.xorReg x y) s = .next t ∧
        (∀ k < 8, (t.reg x).getLsbD k = ((s.reg x).getLsbD k ^^ (s.reg y).getLsbD k)) ∧
        (∀ r, r ≠ x → t.reg r = s.reg r) ∧ t.pc = s.pc + 2 ∧ t = { s with v := t.v, pc := t.pc })

/-- `8XY4` (R97): the sum modulo 256, and `VF` the carry; that the flag is written last, so that it is what remains when
`X = 15`, is the spec's decision D11 (R90, log entry 11). -/
def Obligations.AddRegistersWithCarry : Prop :=
  ∀ (x y : Reg) (s : State),
    decodeWord (BitVec.ofNat 16 (0x8004 + 0x100 * x.val + 0x10 * y.val)) = .ok (.addReg x y) ∧
    ∃ t, exec (.addReg x y) s = .next t ∧
      (x ≠ 15 → (t.reg x).toNat = ((s.reg x).toNat + (s.reg y).toNat) % 256) ∧
      t.reg 15 = (if 256 ≤ (s.reg x).toNat + (s.reg y).toNat then 1 else 0) ∧
      (∀ r, r ≠ x → r ≠ 15 → t.reg r = s.reg r) ∧ t.pc = s.pc + 2 ∧ t = { s with v := t.v, pc := t.pc }

/-- `8XY5` and `8XY7` (R98, R100): the difference modulo 256; that `VF` is 1 when no borrow occurs, equality included, is
the spec's decision D12, that it is what remains when `X = 15` its decision D11. -/
def Obligations.SubtractRegistersWithNotBorrow : Prop :=
  ∀ (x y : Reg) (s : State),
    (decodeWord (BitVec.ofNat 16 (0x8005 + 0x100 * x.val + 0x10 * y.val)) = .ok (.sub x y) ∧
      ∃ t, exec (.sub x y) s = .next t ∧
        (x ≠ 15 → ((t.reg x).toNat : Int) = (((s.reg x).toNat : Int) - (s.reg y).toNat) % 256) ∧
        t.reg 15 = (if (s.reg y).toNat ≤ (s.reg x).toNat then 1 else 0) ∧
        (∀ r, r ≠ x → r ≠ 15 → t.reg r = s.reg r) ∧ t.pc = s.pc + 2 ∧ t = { s with v := t.v, pc := t.pc }) ∧
    (decodeWord (BitVec.ofNat 16 (0x8007 + 0x100 * x.val + 0x10 * y.val)) = .ok (.subn x y) ∧
      ∃ t, exec (.subn x y) s = .next t ∧
        (x ≠ 15 → ((t.reg x).toNat : Int) = (((s.reg y).toNat : Int) - (s.reg x).toNat) % 256) ∧
        t.reg 15 = (if (s.reg x).toNat ≤ (s.reg y).toNat then 1 else 0) ∧
        (∀ r, r ≠ x → r ≠ 15 → t.reg r = s.reg r) ∧ t.pc = s.pc + 2 ∧ t = { s with v := t.v, pc := t.pc })

/-- `8XY6` and `8XYE` (R99, R101), for either value of the open parameter `SHIFT_SOURCE` (D6, log entry 4): the source
divided by 2, or doubled modulo 256, and `VF` the bit shifted out (what remains when `X = 15`: D11). With `VY` the source
register itself is not changed. -/
def Obligations.ShiftsByOneWithBitShiftedOut : Prop :=
  ∀ (x y : Reg) (s : State),
    (decodeWord (BitVec.ofNat 16 (0x8006 + 0x100 * x.val + 0x10 * y.val)) = .ok (.shr x y) ∧
      ∃ t, exec (.shr x y) s = .next t ∧ (x ≠ 15 → (t.reg x).toNat = s.shiftOperand x y / 2) ∧
        (t.reg 15).toNat = s.shiftOperand x y % 2 ∧
        (∀ r, r ≠ x → r ≠ 15 → t.reg r = s.reg r) ∧ t.pc = s.pc + 2 ∧ t = { s with v := t.v, pc := t.pc }) ∧
    (decodeWord (BitVec.ofNat 16 (0x800E + 0x100 * x.val + 0x10 * y.val)) = .ok (.shl x y) ∧
      ∃ t, exec (.shl x y) s = .next t ∧ (x ≠ 15 → (t.reg x).toNat = s.shiftOperand x y * 2 % 256) ∧
        (t.reg 15).toNat = s.shiftOperand x y / 128 ∧
        (∀ r, r ≠ x → r ≠ 15 → t.reg r = s.reg r) ∧ t.pc = s.pc + 2 ∧ t = { s with v := t.v, pc := t.pc })

/-- `CXNN` (R102; that the instruction exists and its byte is free is the spec's decision D15): the register gets the
drawn byte, whatever it is, masked with `NN`, and the next draw is a fresh one. The drawn byte is the free value of log
entry 3; nothing here rests on what it is. -/
def Obligations.RandomByteIsMasked : Prop :=
  ∀ (x : Reg) (nn : Byte) (s : State),
    decodeWord (BitVec.ofNat 16 (0xC000 + 0x100 * x.val + nn.toNat)) = .ok (.rnd x nn) ∧
    ∃ t, exec (.rnd x nn) s = .next t ∧
      (∀ k < 8, (t.reg x).getLsbD k = ((Config.rnd s.draws).getLsbD k && nn.getLsbD k)) ∧
      (∀ r, r ≠ x → t.reg r = s.reg r) ∧ t.pc = s.pc + 2 ∧ t.draws = s.draws + 1 ∧
      t = { s with v := t.v, pc := t.pc, draws := t.draws }

/-! ## Display instructions (41_display.md) -/

/-- `00E0` (R111). -/
def Obligations.ClearDisplayResult : Prop :=
  ∀ s : State,
    decodeWord 0x00E0 = .ok .cls ∧
    ∃ t, exec .cls s = .next t ∧ (∀ col < 64, ∀ row < 32, Frame.pixel t.fb col row = false) ∧ t.pc = s.pc + 2 ∧
      t = { s with fb := t.fb, pc := t.pc }

/-- `DXYN` (R112). In bounds, or with `N = 0`: exactly the pixels under a 1 bit of the sprite are inverted, `VF` is 1 if
some pixel went from set to unset and else 0, and `I` and the other registers stay. With a sprite byte out of bounds the
instruction halts the run and nothing else changes. Bit order, wrapping and the precise fault are the spec's decisions
D24, D27 and D18. -/
def Obligations.DrawSpriteResult : Prop :=
  ∀ (x y : Reg) (n : BitVec 4) (s : State),
    decodeWord (BitVec.ofNat 16 (0xD000 + 0x100 * x.val + 0x10 * y.val + n.toNat)) = .ok (.drw x y n) ∧
    (n.toNat = 0 ∨ s.index.toNat + n.toNat - 1 < 4096 →
      ∃ t, exec (.drw x y n) s = .next t ∧
        (∀ col < 64, ∀ row < 32,
          Frame.pixel t.fb col row = (Frame.pixel s.fb col row ^^ s.spriteLit x y n col row)) ∧
        (t.reg 15 = 0 ∨ t.reg 15 = 1) ∧
        (t.reg 15 = 1 ↔
          ∃ col row, col < 64 ∧ row < 32 ∧ Frame.pixel s.fb col row = true ∧ Frame.pixel t.fb col row = false) ∧
        (∀ r, r ≠ 15 → t.reg r = s.reg r) ∧ t.pc = s.pc + 2 ∧ t = { s with v := t.v, fb := t.fb, pc := t.pc }) ∧
    (0 < n.toNat ∧ 4096 ≤ s.index.toNat + n.toNat - 1 →
      exec (.drw x y n) s = .next { s with run := .halted .memoryOutOfBounds })

/-- Drawing a sprite twice restores the display, whatever it was (R112); if the pixels under the sprite's 1 bits were
unset, the first draw gives `VF = 0` and sets them, and the second gives `VF = 1` if the sprite has a 1 bit, else 0 (R118,
which the spec derives from R112 and R116). `X` and `Y` are not 15: there the first draw moves the second. -/
def Obligations.DrawingTwiceRestoresTheDisplay : Prop :=
  ∀ (x y : Reg) (n : BitVec 4) (s : State),
    x ≠ 15 → y ≠ 15 → (n.toNat = 0 ∨ s.index.toNat + n.toNat - 1 < 4096) →
      ∃ t u, exec (.drw x y n) s = .next t ∧ exec (.drw x y n) t = .next u ∧ u.fb = s.fb ∧
        ((∀ col < 64, ∀ row < 32, s.spriteLit x y n col row = true → Frame.pixel s.fb col row = false) →
          t.reg 15 = 0 ∧
          (∀ col < 64, ∀ row < 32, s.spriteLit x y n col row = true → Frame.pixel t.fb col row = true) ∧
          (u.reg 15 = 1 ↔ ∃ col row, col < 64 ∧ row < 32 ∧ s.spriteLit x y n col row = true) ∧
          (u.reg 15 = 0 ↔ ∀ col < 64, ∀ row < 32, s.spriteLit x y n col row = false))

/-! ## Keypad and timer instructions (42_keypad_timers.md) -/

/-- `EX9E` and `EXA1` (R120, R121): they skip on the level of `KEYS`, each the complement of the other; that a value above
15 is no pressed key is the spec's decision D17. -/
def Obligations.KeySkipsAreComplements : Prop :=
  ∀ (x : Reg) (s : State),
    decodeWord (BitVec.ofNat 16 (0xE09E + 0x100 * x.val)) = .ok (.skp x) ∧
    decodeWord (BitVec.ofNat 16 (0xE0A1 + 0x100 * x.val)) = .ok (.sknp x) ∧
    exec (.skp x) s = .next { s with
      pc := if ∃ k : Key, (s.reg x).toNat = k.val ∧ s.keys[k] = true then s.pc + 4 else s.pc + 2 } ∧
    exec (.sknp x) s = .next { s with
      pc := if ∃ k : Key, (s.reg x).toNat = k.val ∧ s.keys[k] = true then s.pc + 2 else s.pc + 4 }

/-- `FX0A` (R122): arms the latch with the destination register and changes nothing else; `PC` stays at the instruction,
held keys or not (the spec's decisions D2, D3). The register is written when a key-down resolves the wait
(`KeyDownResolvesTheWait`). -/
def Obligations.WaitForKeyArmsTheLatch : Prop :=
  ∀ (x : Reg) (s : State),
    decodeWord (BitVec.ofNat 16 (0xF00A + 0x100 * x.val)) = .ok (.ldVxK x) ∧
    exec (.ldVxK x) s = .next { s with kw := some x }

/-- `FX07`, `FX15`, `FX18` (R123, R124, R125): read the delay timer, set the delay timer, set the sound timer. -/
def Obligations.TimerInstructionsResult : Prop :=
  ∀ (x : Reg) (s : State),
    (decodeWord (BitVec.ofNat 16 (0xF007 + 0x100 * x.val)) = .ok (.ldVxDt x) ∧
      ∃ t, exec (.ldVxDt x) s = .next t ∧ t.reg x = s.dt ∧ (∀ r, r ≠ x → t.reg r = s.reg r) ∧ t.pc = s.pc + 2 ∧
        t = { s with v := t.v, pc := t.pc }) ∧
    (decodeWord (BitVec.ofNat 16 (0xF015 + 0x100 * x.val)) = .ok (.ldDtVx x) ∧
      exec (.ldDtVx x) s = .next { s with dt := s.reg x, pc := s.pc + 2 }) ∧
    (decodeWord (BitVec.ofNat 16 (0xF018 + 0x100 * x.val)) = .ok (.ldStVx x) ∧
      exec (.ldStVx x) s = .next { s with st := s.reg x, pc := s.pc + 2 })

/-! ## Index-register and memory instructions (43_index_memory.md) -/

/-- `ANNN` (R130): the 12-bit value, zero-extended. -/
def Obligations.LoadIndexResult : Prop :=
  ∀ (nnn : BitVec 12) (s : State),
    decodeWord (BitVec.ofNat 16 (0xA000 + nnn.toNat)) = .ok (.ldI nnn) ∧
    ∃ t, exec (.ldI nnn) s = .next t ∧ t.index.toNat = nnn.toNat ∧ t.pc = s.pc + 2 ∧
      t = { s with index := t.index, pc := t.pc }

/-- `FX1E` and `FX29` (R131, R132): the sum modulo 65536, no flag (the spec's decision D10); five times the digit, not
masked (its decision D16). -/
def Obligations.IndexArithmeticResult : Prop :=
  ∀ (x : Reg) (s : State),
    (decodeWord (BitVec.ofNat 16 (0xF01E + 0x100 * x.val)) = .ok (.addI x) ∧
      ∃ t, exec (.addI x) s = .next t ∧ t.index.toNat = (s.index.toNat + (s.reg x).toNat) % 65536 ∧ t.pc = s.pc + 2 ∧
        t = { s with index := t.index, pc := t.pc }) ∧
    (decodeWord (BitVec.ofNat 16 (0xF029 + 0x100 * x.val)) = .ok (.ldF x) ∧
      ∃ t, exec (.ldF x) s = .next t ∧ t.index.toNat = 5 * (s.reg x).toNat ∧ t.pc = s.pc + 2 ∧
        t = { s with index := t.index, pc := t.pc })

/-- `FX33` (R133): the digits of the register, most significant first (the spec's decision D25), at `I`, `I + 1`, `I + 2`;
every other byte reads as before. With a byte out of bounds the run halts and nothing else changes (its decision D18). -/
def Obligations.StoreDecimalDigitsResult : Prop :=
  ∀ (x : Reg) (s : State),
    decodeWord (BitVec.ofNat 16 (0xF033 + 0x100 * x.val)) = .ok (.ldB x) ∧
    (s.index.toNat + 2 < 4096 →
      ∃ t, exec (.ldB x) s = .next t ∧
        (Memory.read t.mem s.index.toNat).toNat = (s.reg x).toNat / 100 ∧
        (Memory.read t.mem (s.index.toNat + 1)).toNat = (s.reg x).toNat / 10 % 10 ∧
        (Memory.read t.mem (s.index.toNat + 2)).toNat = (s.reg x).toNat % 10 ∧
        (∀ a, a < s.index.toNat ∨ s.index.toNat + 2 < a → Memory.read t.mem a = Memory.read s.mem a) ∧
        t.pc = s.pc + 2 ∧ t = { s with mem := t.mem, pc := t.pc }) ∧
    (4096 ≤ s.index.toNat + 2 → exec (.ldB x) s = .next { s with run := .halted .memoryOutOfBounds })

/-- `FX55` (R134): `V0` to `VX` at `I` to `I + X`, every other byte as before; `I` ends as the open parameter
`LOADSTORE_INCREMENTS_I` says (D7, log entry 5). Out of bounds the run halts and nothing else changes (the spec's decision
D18). -/
def Obligations.StoreRegistersResult : Prop :=
  ∀ (x : Reg) (s : State),
    decodeWord (BitVec.ofNat 16 (0xF055 + 0x100 * x.val)) = .ok (.stRegs x) ∧
    (s.index.toNat + x.val < 4096 →
      ∃ t, exec (.stRegs x) s = .next t ∧
        (∀ r : Reg, r ≤ x → Memory.read t.mem (s.index.toNat + r.val) = s.reg r) ∧
        (∀ a, a < s.index.toNat ∨ s.index.toNat + x.val < a → Memory.read t.mem a = Memory.read s.mem a) ∧
        t.index.toNat = (if Config.loadStoreIncrementsI then s.index.toNat + x.val + 1 else s.index.toNat) ∧
        t.pc = s.pc + 2 ∧ t = { s with mem := t.mem, index := t.index, pc := t.pc }) ∧
    (4096 ≤ s.index.toNat + x.val → exec (.stRegs x) s = .next { s with run := .halted .memoryOutOfBounds })

/-- `FX65` (R135): `V0` to `VX` from `I` to `I + X`, the registers above `X` as before; `I` ends as the open parameter
`LOADSTORE_INCREMENTS_I` says (D7, log entry 5). Out of bounds the run halts and nothing else changes (the spec's decision
D18). -/
def Obligations.LoadRegistersResult : Prop :=
  ∀ (x : Reg) (s : State),
    decodeWord (BitVec.ofNat 16 (0xF065 + 0x100 * x.val)) = .ok (.ldRegs x) ∧
    (s.index.toNat + x.val < 4096 →
      ∃ t, exec (.ldRegs x) s = .next t ∧
        (∀ r : Reg, r ≤ x → t.reg r = Memory.read s.mem (s.index.toNat + r.val)) ∧
        (∀ r : Reg, x < r → t.reg r = s.reg r) ∧
        t.index.toNat = (if Config.loadStoreIncrementsI then s.index.toNat + x.val + 1 else s.index.toNat) ∧
        t.pc = s.pc + 2 ∧ t = { s with v := t.v, index := t.index, pc := t.pc }) ∧
    (4096 ≤ s.index.toNat + x.val → exec (.ldRegs x) s = .next { s with run := .halted .memoryOutOfBounds })

/-- Fetch is coherent with stores at once (20_memory.md R61, which the spec derives): when `FX55` has just stored `V0`,
`V1` over the two bytes after itself, the next step runs the instruction those two bytes decode to. Both steps are cycles
placed on the timeline, or steps with nothing placed, which are cycles by the model's choice (log entry 2). -/
def Obligations.StoredCodeRunsNext : Prop :=
  ∀ (s : State) (w : Word) (x : Reg) (j : Instr),
    s.run = .running → s.kw = none → s.fetchWord = some w → decodeWord w = .ok (.stRegs x) →
    1 ≤ x.val → s.index.toNat = s.pc.toNat + 2 → s.index.toNat + x.val < 4096 →
    decodeWord (wordOfBytes (s.reg 0) (s.reg 1)) = .ok j →
      (s.timeline = [] → ∃ t, step s = .next t ∧ step t = exec j t) ∧
      (∀ rest, s.timeline = .cycle :: .cycle :: rest →
        ∃ t, step s = .next t ∧ step t = exec j { t with timeline := rest })

/-! ## Control-transfer instructions (44_control_flow.md) -/

/-- `00EE` (R141): the popped address is the new `PC`, with no further advance; the slot keeps its value. On an empty stack
the run halts and nothing else changes (the spec's decision D18). -/
def Obligations.ReturnResult : Prop :=
  ∀ s : State,
    decodeWord 0x00EE = .ok .ret ∧
    (0 < s.sp.val →
      ∃ t, exec .ret s = .next t ∧ t.sp.val = s.sp.val - 1 ∧
        (∀ k : Fin 16, k.val = s.sp.val - 1 → t.pc = s.stack[k]) ∧ t = { s with sp := t.sp, pc := t.pc }) ∧
    (s.sp.val = 0 → exec .ret s = .next { s with run := .halted .stackUnderflow })

/-- `1NNN` (R142): to any of the 4096 targets; that none is checked, odd or below 0x200 included, is the spec's decision
D19 (R149, log entry 15). -/
def Obligations.JumpResult : Prop :=
  ∀ (nnn : BitVec 12) (s : State),
    decodeWord (BitVec.ofNat 16 (0x1000 + nnn.toNat)) = .ok (.jp nnn) ∧
    ∃ t, exec (.jp nnn) s = .next t ∧ t.pc.toNat = nnn.toNat ∧ t = { s with pc := t.pc }

/-- `2NNN` (R143; that the pushed value is `PC + 2` the spec derives): the new entry, the depth and the target. With 16
entries in use the run halts and nothing else changes (the spec's decision D18). -/
def Obligations.CallResult : Prop :=
  ∀ (nnn : BitVec 12) (s : State),
    decodeWord (BitVec.ofNat 16 (0x2000 + nnn.toNat)) = .ok (.call nnn) ∧
    (s.sp.val < 16 →
      ∃ t, exec (.call nnn) s = .next t ∧
        (∀ k : Fin 16, t.stack[k] = if k.val = s.sp.val then s.pc + 2 else s.stack[k]) ∧
        t.sp.val = s.sp.val + 1 ∧ t.pc.toNat = nnn.toNat ∧ t = { s with stack := t.stack, sp := t.sp, pc := t.pc }) ∧
    (s.sp.val = 16 → exec (.call nnn) s = .next { s with run := .halted .stackOverflow })

/-- `3XNN` and `4XNN` (R144, R145): skip if the register equals, or differs from, the immediate. -/
def Obligations.SkipsOnImmediate : Prop :=
  ∀ (x : Reg) (nn : Byte) (s : State),
    decodeWord (BitVec.ofNat 16 (0x3000 + 0x100 * x.val + nn.toNat)) = .ok (.seImm x nn) ∧
    decodeWord (BitVec.ofNat 16 (0x4000 + 0x100 * x.val + nn.toNat)) = .ok (.sneImm x nn) ∧
    exec (.seImm x nn) s = .next { s with pc := if (s.reg x).toNat = nn.toNat then s.pc + 4 else s.pc + 2 } ∧
    exec (.sneImm x nn) s = .next { s with pc := if (s.reg x).toNat = nn.toNat then s.pc + 2 else s.pc + 4 }

/-- `5XY0` and `9XY0` (R146, R147): skip if the registers are equal, or differ. -/
def Obligations.SkipsOnRegisters : Prop :=
  ∀ (x y : Reg) (s : State),
    decodeWord (BitVec.ofNat 16 (0x5000 + 0x100 * x.val + 0x10 * y.val)) = .ok (.seReg x y) ∧
    decodeWord (BitVec.ofNat 16 (0x9000 + 0x100 * x.val + 0x10 * y.val)) = .ok (.sneReg x y) ∧
    exec (.seReg x y) s = .next { s with pc := if (s.reg x).toNat = (s.reg y).toNat then s.pc + 4 else s.pc + 2 } ∧
    exec (.sneReg x y) s = .next { s with pc := if (s.reg x).toNat = (s.reg y).toNat then s.pc + 2 else s.pc + 4 }

/-- `BNNN` (R148): `NNN + V0` as a natural number; that the sum is not reduced, and that the register is `V0`, is the
spec's decision D26. -/
def Obligations.ComputedJumpResult : Prop :=
  ∀ (nnn : BitVec 12) (s : State),
    decodeWord (BitVec.ofNat 16 (0xB000 + nnn.toNat)) = .ok (.jpV0 nnn) ∧
    ∃ t, exec (.jpV0 nnn) s = .next t ∧ t.pc.toNat = nnn.toNat + (s.reg 0).toNat ∧ t = { s with pc := t.pc }

/-! ## Frames: what an instruction leaves unchanged (the access matrix, 10_state.md R36) -/

/-- No instruction changes a general register but its destination, and `VF` where the spec names it as the flag. -/
def Obligations.OnlyDestinationRegistersChange : Prop :=
  ∀ (i : Instr) (s t : State), exec i s = .next t → ∀ r, writesReg i r = false → t.reg r = s.reg r

/-- No instruction changes a byte of memory but those it stores to: `FX33` three from `I`, `FX55` `X + 1` from `I`, every
other instruction none. -/
def Obligations.OnlyStoredBytesChange : Prop :=
  ∀ (i : Instr) (s t : State), exec i s = .next t →
    ∀ a, (∀ base count, storesTo i s = some (base, count) → a < base ∨ base + count ≤ a) →
      Memory.read t.mem a = Memory.read s.mem a

/-- Every other piece of state changes only under the instructions the access matrix names. `PC` advances by 2 (a 16-bit
sum: log entry 23) unless the instruction faults, where it stays (the spec's decision D18), or stands in the matrix's
column for `PC` (`00EE`, `1NNN`, `2NNN`, `BNNN` and the skips; `FX0A` keeps it). The others: `I` under `ANNN`, `FX1E`,
`FX29` (and `FX55`, `FX65` if they increment it); `SP` under `00EE` and `2NNN`, `STACK` under `2NNN`; `DT` under `FX15`;
`ST` under `FX18`; `KW` under `FX0A`; `FB` under `00E0` and `DXYN`; `KEYS` under none; `RUN` only by a fault. The model's
own draw counter moves only under `CXNN`, its timeline under none (log entries 2 and 3). -/
def Obligations.EveryOtherComponentHasItsWriters : Prop :=
  ∀ (i : Instr) (s t : State), exec i s = .next t →
    (writesPc i = false → t.pc = s.pc + 2 ∨ ∃ r, t = { s with run := .halted r }) ∧
    ((∃ x, i = .ldVxK x) → t.pc = s.pc) ∧
    (¬writesIndex i → t.index = s.index) ∧
    (i ≠ .ret → (∀ nnn, i ≠ .call nnn) → t.sp = s.sp) ∧
    ((∀ nnn, i ≠ .call nnn) → t.stack = s.stack) ∧
    ((∀ x, i ≠ .ldDtVx x) → t.dt = s.dt) ∧
    ((∀ x, i ≠ .ldStVx x) → t.st = s.st) ∧
    t.keys = s.keys ∧
    ((∀ x, i ≠ .ldVxK x) → t.kw = s.kw) ∧
    (i ≠ .cls → (∀ x y n, i ≠ .drw x y n) → t.fb = s.fb) ∧
    (t.run = s.run ∨ ∃ r, t = { s with run := .halted r }) ∧
    ((∀ x nn, i ≠ .rnd x nn) → t.draws = s.draws) ∧
    t.timeline = s.timeline

/-! ## The timer and the host (60_exceptions.md) -/

/-- Ticks in `Running` take one off each non-zero counter and stop at 0, whether or not a key is awaited, and change
nothing else (R173; that ticks go on during a key wait is the spec's decision D1). -/
def Obligations.TicksCountDownToZero : Prop :=
  ∀ (n : Nat) (s : State) (rest : List Event),
    s.run = .running → s.timeline = List.replicate n .tick ++ rest →
      ∃ t, Sys2Proof.core.run n s = .next t ∧ t.dt.toNat = s.dt.toNat - n ∧ t.st.toNat = s.st.toNat - n ∧
        t = { s with dt := t.dt, st := t.st, timeline := rest }

/-- `keyDown(k)` (R174, R177): in `Running` and `Paused` the key is down; in `Running` an armed latch is resolved: the code
goes to the awaited register, the latch is cleared, and `PC` advances past the key-wait instruction. That the event
resolves it whatever `KEYS` held, does the advance itself, and resolves nothing in `Paused` are the spec's decisions D3,
D2, D5. -/
def Obligations.KeyDownResolvesTheWait : Prop :=
  ∀ (k : Key) (s : State),
    ∃ t, perform (.keyDown k) s = .next t ∧
      ((s.run = .running ∨ s.run = .paused) → t.keys[k] = true ∧ ∀ j : Key, j ≠ k → t.keys[j] = s.keys[j]) ∧
      (s.run = .running → ∀ x, s.kw = some x →
        (t.reg x).toNat = k.val ∧ (∀ r, r ≠ x → t.reg r = s.reg r) ∧ t.kw = none ∧ t.pc = s.pc + 2 ∧
          t = { s with v := t.v, kw := t.kw, pc := t.pc, keys := t.keys }) ∧
      (s.run = .paused ∨ s.kw = none → t = { s with keys := t.keys }) ∧
      (s.run = .idle ∨ (∃ r, s.run = .halted r) → t = s)

/-- `keyUp(k)` (R175): a simple update of `KEYS` in `Running` and `Paused`; that it is the same while a wait is armed is
the spec's decision D4. -/
def Obligations.KeyUpOnlyReleasesTheKey : Prop :=
  ∀ (k : Key) (s : State),
    ∃ t, perform (.keyUp k) s = .next t ∧ t = { s with keys := t.keys } ∧
      ((s.run = .running ∨ s.run = .paused) → t.keys[k] = false ∧ ∀ j : Key, j ≠ k → t.keys[j] = s.keys[j]) ∧
      (s.run = .idle ∨ (∃ r, s.run = .halted r) → t = s)

/-- The key wait (R186, R122): while a key is awaited, any sequence of cycles, ticks and key releases leaves everything but
the timers, the keys and the timeline as it is, and the timers lose one for each tick (the spec's decision D1). -/
def Obligations.KeyWaitSuspendsOnlyTheExecutor : Prop :=
  ∀ (es rest : List Event) (s : State) (x : Reg),
    s.run = .running → s.kw = some x → s.timeline = es ++ rest →
    (∀ e ∈ es, e = .cycle ∨ e = .tick ∨ ∃ k, e = .keyUp k) →
      ∃ t, Sys2Proof.core.run es.length s = .next t ∧
        t.dt.toNat = s.dt.toNat - es.count .tick ∧ t.st.toNat = s.st.toNat - es.count .tick ∧
        t = { s with dt := t.dt, st := t.st, keys := t.keys, timeline := rest }

/-- The run-state machine (R168): `togglePause` moves between `Running` and `Paused` and changes nothing else; `stop` goes
to `Idle`; `start` goes from `Idle` to `Running`; a cycle of a running block keeps it running or halts it; every other
combination of run state and event leaves the run state as it is (R172 is the spec's decision D30). That `start` with an
empty or over-long image changes nothing is the model's own (log entry 26): by R202 such an image never reaches `start`. -/
def Obligations.RunStateMachine : Prop :=
  ∀ s : State,
    (s.run = .running → perform .togglePause s = .next { s with run := .paused }) ∧
    (s.run = .paused → perform .togglePause s = .next { s with run := .running }) ∧
    (s.run ≠ .running → s.run ≠ .paused → perform .togglePause s = .next s) ∧
    (s.run ≠ .idle → ∃ t, perform .stop s = .next t ∧ t.run = .idle) ∧
    (s.run = .idle → perform .stop s = .next s) ∧
    (∀ rom, s.run = .idle → 1 ≤ rom.length → rom.length ≤ 3584 →
      ∃ t, perform (.start rom) s = .next t ∧ t.run = .running) ∧
    (∀ rom, s.run ≠ .idle ∨ rom = [] ∨ 3584 < rom.length → perform (.start rom) s = .next s) ∧
    (s.run = .running → ∃ t, perform .cycle s = .next t ∧ (t.run = .running ∨ ∃ r, t.run = .halted r)) ∧
    (s.run ≠ .running → perform .cycle s = .next s ∧ perform .tick s = .next s) ∧
    (∀ e t, e = .tick ∨ (∃ k, e = .keyDown k) ∨ (∃ k, e = .keyUp k) → perform e s = .next t → t.run = s.run)

/-! ## Reset (10_state.md R35, 70_reset_and_hazards.md R201) -/

/-- `start(rom)` leaves every piece of state at its reset value, with the image at 0x200, the font table from 0 on and
zeros at every other address below 4096 (R201, R51, R63). The values D0 does not list are the spec's decision D21, the
font bytes its decision D16 (log entry 6). -/
def Obligations.StartResetsEverything : Prop :=
  ∀ (rom : List Byte) (s : State), s.run = .idle → 1 ≤ rom.length → rom.length ≤ 3584 →
    ∃ t, perform (.start rom) s = .next t ∧
      (∀ k (h : k < rom.length), Memory.read t.mem (0x200 + k) = rom[k]) ∧
      (∀ a, 0x200 + rom.length ≤ a → a < 4096 → Memory.read t.mem a = 0) ∧
      (∀ a, 80 ≤ a → a < 0x200 → Memory.read t.mem a = 0) ∧
      (List.range 80).map (Memory.read t.mem) =
        [0xF0, 0x90, 0x90, 0x90, 0xF0, 0x20, 0x60, 0x20, 0x20, 0x70, 0xF0, 0x10, 0xF0, 0x80, 0xF0,
         0xF0, 0x10, 0xF0, 0x10, 0xF0, 0x90, 0x90, 0xF0, 0x10, 0x10, 0xF0, 0x80, 0xF0, 0x10, 0xF0] ++
        [0xF0, 0x80, 0xF0, 0x90, 0xF0, 0xF0, 0x10, 0x20, 0x40, 0x40, 0xF0, 0x90, 0xF0, 0x90, 0xF0,
         0xF0, 0x90, 0xF0, 0x10, 0xF0, 0xF0, 0x90, 0xF0, 0x90, 0x90, 0xE0, 0x90, 0xE0, 0x90, 0xE0] ++
        [0xF0, 0x80, 0x80, 0x80, 0xF0, 0xE0, 0x90, 0x90, 0x90, 0xE0, 0xF0, 0x80, 0xF0, 0x80, 0xF0,
         0xF0, 0x80, 0xF0, 0x80, 0x80] ∧
      (∀ r, t.reg r = 0) ∧ t.index = 0 ∧ t.pc = 0x200 ∧ t.sp = 0 ∧ (∀ k : Fin 16, t.stack[k] = 0) ∧
      t.dt = 0 ∧ t.st = 0 ∧ (∀ k : Key, t.keys[k] = false) ∧ t.kw = none ∧
      (∀ col < 64, ∀ row < 32, Frame.pixel t.fb col row = false) ∧ t.run = .running

/-- The state after reset is what `start` leaves of an idle block for an image of zeros, whatever the model's own two
fields hold (the model's choice: an image that places nothing, log entry 7). -/
def Obligations.ResetIsStartOfAnImageOfZeros : Prop :=
  ∀ s : State, s.run = .idle →
    perform (.start [0]) s = .next { State.reset with draws := s.draws, timeline := s.timeline }

/-! ## Whole-machine statements -/

/-- The reset state meets the invariant, and D0's own invariant of `PC` (10_state.md R25 (b): it "holds at reset"). -/
def Obligations.ResetMeetsTheInvariant : Prop := State.reset.Inv ∧ State.reset.PcWellPlaced

/-- Every step keeps the invariant, whatever is placed on the timeline: memory canonical, `PC` at most 0x10FE and so never
wrapping (10_state.md R25 (c)), live return addresses at most 0x1000, the latch armed only at its own key-wait instruction
(R30), no key awaited in `Halted`. -/
def Obligations.EveryStepKeepsTheInvariant : Prop := ∀ s t : State, s.Inv → step s = .next t → t.Inv

/-- A finished program stays finished: at a jump to itself any number of cycles changes nothing but the timeline
(70_reset_and_hazards.md R205 (c)). -/
def Obligations.FinishedProgramsStandStill : Prop :=
  ∀ (n : Nat) (s : State) (rest : List Event), s.Finished → s.timeline = List.replicate n .cycle ++ rest →
    Sys2Proof.core.run n s = .next { s with timeline := rest }

/-- Call-stack slots that are not in use cannot be told apart by anything that follows: states that agree but for them
step to states that agree but for them (10_state.md R26: "unobservable by the program"). -/
def Obligations.DeadStackSlotsAreUnobservable : Prop :=
  ∀ s s' t : State, SameButDeadSlots s s' → step s = .next t → ∃ t', step s' = .next t' ∧ SameButDeadSlots t t'

/-- No instruction reads the sound timer: changing it before an instruction changes nothing after it but the timer itself,
and not even that if the instruction sets it (10_state.md R28). -/
def Obligations.SoundTimerIsNeverRead : Prop :=
  ∀ (i : Instr) (s t : State) (b : Byte), exec i s = .next t →
    exec i { s with st := b } = .next { t with st := if ∃ x, i = .ldStVx x then t.st else b }
end

