-- ==== Sys2Proof/Laws/Config.lean ====
section
/-! SUPPORT. The numbers behind the names of the fixed parameters (00_scope.md R4, R5), for `simp` and `omega`. -/

namespace Sys2Proof

@[simp] theorem memSize_eq : memSize = 4096 := rfl

@[simp] theorem progBase_eq : progBase = 512 := rfl

@[simp] theorem fontBase_eq : fontBase = 0 := rfl

@[simp] theorem stackDepth_eq : stackDepth = 16 := rfl

@[simp] theorem maxRom_eq : maxRom = 3584 := rfl

end Sys2Proof
end

