-- ==== Sys2Proof/Laws/Encoding.lean ====
section
/-! SUPPORT. Each operation of the field layouts says once what it reads (30_encoding.md R71, R72). -/

namespace Sys2Proof

@[simp] theorem regOfNibble_nibbleOfReg (r : Reg) : regOfNibble (nibbleOfReg r) = r := rfl

@[simp] theorem nibbleOfReg_regOfNibble (b : BitVec 4) : nibbleOfReg (regOfNibble b) = b := rfl

/-- The two bytes of a word, put together big-endian, are the word (20_memory.md R54). -/
@[simp] theorem wordOfBytes_high_low (w : Word) : wordOfBytes (highByte w) (lowByte w) = w := by
  apply BitVec.eq_of_getLsbD_eq
  intro i hi
  simp only [wordOfBytes, highByte, lowByte]
  rw [BitVec.getLsbD_append]
  by_cases h : i < 8
  · simp [h]
  · have : i - 8 < 8 := by omega
    simp [h, this, show 8 + (i - 8) = i by omega]

@[simp] theorem highByte_wordOfBytes (hi lo : Byte) : highByte (wordOfBytes hi lo) = hi := by
  apply BitVec.eq_of_getLsbD_eq
  intro i h
  simp only [wordOfBytes, highByte]
  rw [BitVec.getLsbD_extractLsb', BitVec.getLsbD_append]
  simp [h]

@[simp] theorem lowByte_wordOfBytes (hi lo : Byte) : lowByte (wordOfBytes hi lo) = lo := by
  apply BitVec.eq_of_getLsbD_eq
  intro i h
  simp only [wordOfBytes, lowByte]
  rw [BitVec.getLsbD_extractLsb', BitVec.getLsbD_append]
  simp [h]

/-! ## The fields of each format (30_encoding.md R72) -/

@[simp] theorem fieldOp_formatNNN (op : BitVec 4) (nnn : BitVec 12) : fieldOp (formatNNN op nnn) = op := by
  apply BitVec.eq_of_getLsbD_eq
  intro i h
  simp only [fieldOp, formatNNN]
  rw [BitVec.getLsbD_extractLsb', BitVec.getLsbD_append]
  simp [h]

@[simp] theorem fieldNNN_formatNNN (op : BitVec 4) (nnn : BitVec 12) : fieldNNN (formatNNN op nnn) = nnn := by
  apply BitVec.eq_of_getLsbD_eq
  intro i h
  simp only [fieldNNN, formatNNN]
  rw [BitVec.getLsbD_extractLsb', BitVec.getLsbD_append]
  simp [h]

/-- Format `XNN` is format `NNN` with `NNN` made of `X` and `NN`. -/
theorem formatXNN_eq (op : BitVec 4) (x : Reg) (nn : Byte) : formatXNN op x nn = formatNNN op (nibbleOfReg x ++ nn) := by
  apply BitVec.eq_of_getLsbD_eq
  intro i h
  simp only [formatXNN, formatNNN]
  rw [BitVec.getLsbD_append, BitVec.getLsbD_append, BitVec.getLsbD_append, BitVec.getLsbD_append]
  by_cases h1 : i < 8
  · simp [h1, show i < 12 by omega]
  · by_cases h2 : i < 12
    · simp [h1, h2, show i - 8 < 4 by omega]
    · simp [h1, h2, show ¬i - 8 < 4 by omega, show i - 8 - 4 = i - 12 by omega]

@[simp] theorem fieldOp_formatXNN (op : BitVec 4) (x : Reg) (nn : Byte) : fieldOp (formatXNN op x nn) = op := by
  rw [formatXNN_eq, fieldOp_formatNNN]

@[simp] theorem fieldX_formatXNN (op : BitVec 4) (x : Reg) (nn : Byte) : fieldX (formatXNN op x nn) = x := by
  have hx : (formatXNN op x nn).extractLsb' 8 4 = nibbleOfReg x := by
    apply BitVec.eq_of_getLsbD_eq
    intro i h
    simp only [formatXNN]
    rw [BitVec.getLsbD_extractLsb', BitVec.getLsbD_append, BitVec.getLsbD_append]
    simp [h]
  rw [fieldX, hx, regOfNibble_nibbleOfReg]

@[simp] theorem fieldNN_formatXNN (op : BitVec 4) (x : Reg) (nn : Byte) : fieldNN (formatXNN op x nn) = nn := by
  apply BitVec.eq_of_getLsbD_eq
  intro i h
  simp only [fieldNN, formatXNN]
  rw [BitVec.getLsbD_extractLsb', BitVec.getLsbD_append]
  simp [h]

/-- Format `XYN` is format `XNN` with `NN` made of `Y` and `N`. -/
theorem formatXYN_eq (op : BitVec 4) (x y : Reg) (n : BitVec 4) :
    formatXYN op x y n = formatXNN op x (nibbleOfReg y ++ n) := by
  apply BitVec.eq_of_getLsbD_eq
  intro i h
  simp only [formatXYN, formatXNN]
  rw [BitVec.getLsbD_append, BitVec.getLsbD_append, BitVec.getLsbD_append, BitVec.getLsbD_append,
    BitVec.getLsbD_append, BitVec.getLsbD_append]
  by_cases h1 : i < 4
  · simp [h1, show i < 8 by omega]
  · by_cases h2 : i < 8
    · simp [h1, h2, show i - 4 < 4 by omega]
    · simp [h1, h2, show ¬i - 4 < 4 by omega, show i - 4 - 4 = i - 8 by omega]

@[simp] theorem fieldOp_formatXYN (op : BitVec 4) (x y : Reg) (n : BitVec 4) : fieldOp (formatXYN op x y n) = op := by
  rw [formatXYN_eq, fieldOp_formatXNN]

@[simp] theorem fieldX_formatXYN (op : BitVec 4) (x y : Reg) (n : BitVec 4) : fieldX (formatXYN op x y n) = x := by
  rw [formatXYN_eq, fieldX_formatXNN]

@[simp] theorem fieldY_formatXYN (op : BitVec 4) (x y : Reg) (n : BitVec 4) : fieldY (formatXYN op x y n) = y := by
  have hy : (formatXYN op x y n).extractLsb' 4 4 = nibbleOfReg y := by
    apply BitVec.eq_of_getLsbD_eq
    intro i h
    simp only [formatXYN]
    rw [BitVec.getLsbD_extractLsb', BitVec.getLsbD_append, BitVec.getLsbD_append]
    simp [h]
  rw [fieldY, hy, regOfNibble_nibbleOfReg]

@[simp] theorem fieldN_formatXYN (op : BitVec 4) (x y : Reg) (n : BitVec 4) : fieldN (formatXYN op x y n) = n := by
  apply BitVec.eq_of_getLsbD_eq
  intro i h
  simp only [fieldN, formatXYN]
  rw [BitVec.getLsbD_extractLsb', BitVec.getLsbD_append]
  simp [h]

/-! ## The formats as numbers (30_encoding.md R71: the places of the fields) -/

theorem toNat_formatNNN (op : BitVec 4) (nnn : BitVec 12) :
    (formatNNN op nnn).toNat = 0x1000 * op.toNat + nnn.toNat := by
  unfold formatNNN
  rw [BitVec.toNat_append, ← Nat.shiftLeft_add_eq_or_of_lt nnn.isLt, Nat.shiftLeft_eq]
  omega

theorem toNat_formatXNN (op : BitVec 4) (x : Reg) (nn : Byte) :
    (formatXNN op x nn).toNat = 0x1000 * op.toNat + 0x100 * x.val + nn.toNat := by
  have hx : (nibbleOfReg x).toNat = x.val := rfl
  rw [formatXNN_eq, toNat_formatNNN, BitVec.toNat_append, ← Nat.shiftLeft_add_eq_or_of_lt nn.isLt, Nat.shiftLeft_eq, hx]
  omega

theorem toNat_formatXYN (op : BitVec 4) (x y : Reg) (n : BitVec 4) :
    (formatXYN op x y n).toNat = 0x1000 * op.toNat + 0x100 * x.val + 0x10 * y.val + n.toNat := by
  have hy : (nibbleOfReg y).toNat = y.val := rfl
  rw [formatXYN_eq, toNat_formatXNN, BitVec.toNat_append, ← Nat.shiftLeft_add_eq_or_of_lt n.isLt, Nat.shiftLeft_eq, hy]
  omega

end Sys2Proof
end

