-- ==== Sys2Proof/Laws/Memory.lean ====
section
/-! SUPPORT. The laws of memory: a read after a write (20_memory.md R58), and that every memory operation keeps the
canonical form. The read laws hold of every list of cells, canonical or not. -/

namespace Sys2Proof.Machine

/-! ## Reading -/

/-- An address that no cell holds reads as the reset contents. -/
theorem Memory.read_of_absent {m : Memory} {a : Nat} (h : ∀ c ∈ m, c.1 ≠ a) : Memory.read m a = unlisted a := by
  induction m with
  | nil => rfl
  | cons c rest ih =>
    obtain ⟨k, b⟩ := c
    have hk : k ≠ a := h (k, b) (by simp)
    simp only [Memory.read, if_neg hk]
    exact ih fun c hc => h c (by simp [hc])

/-- Dropping the cells of one address leaves every other read alone. -/
theorem Memory.read_filter_other {m : Memory} {a a' : Nat} (h : a' ≠ a) :
    Memory.read (m.filter fun c => c.1 ≠ a) a' = Memory.read m a' := by
  induction m with
  | nil => rfl
  | cons c rest ih =>
    obtain ⟨k, b⟩ := c
    by_cases hk : k = a
    · have hka : k ≠ a' := fun e => h (e ▸ hk)
      simpa [List.filter, hk, Memory.read, hk ▸ hka] using ih
    · by_cases hka : k = a'
      · subst hka; simp [List.filter, hk, Memory.read]
      · simpa [List.filter, hk, Memory.read, hka] using ih

theorem Memory.read_place_same {m : Memory} {a : Nat} {b : Byte} (h : ∀ c ∈ m, c.1 ≠ a) :
    Memory.read (Memory.place m a b) a = b := by
  induction m with
  | nil => by_cases hb : b = unlisted a <;> simp [Memory.place, Memory.read, hb]
  | cons c rest ih =>
    obtain ⟨k, d⟩ := c
    have hk : k ≠ a := h (k, d) (by simp)
    have hrest : ∀ c ∈ rest, c.1 ≠ a := fun c hc => h c (by simp [hc])
    by_cases hlt : k < a
    · simp [Memory.place, Memory.read, hlt, hk, ih hrest]
    · by_cases hb : b = unlisted a
      · simp [Memory.place, Memory.read, hlt, hb, hk, Memory.read_of_absent hrest]
      · simp [Memory.place, Memory.read, hlt, hb]

theorem Memory.read_place_other {m : Memory} {a a' : Nat} {b : Byte} (h : a' ≠ a) :
    Memory.read (Memory.place m a b) a' = Memory.read m a' := by
  induction m with
  | nil => by_cases hb : b = unlisted a <;> simp [Memory.place, Memory.read, hb, h.symm]
  | cons c rest ih =>
    obtain ⟨k, d⟩ := c
    by_cases hlt : k < a
    · simp [Memory.place, Memory.read, hlt, ih]
    · by_cases hb : b = unlisted a <;> simp [Memory.place, Memory.read, hlt, hb, h.symm]

/-- A read of the byte just written. -/
theorem Memory.read_write_same {m : Memory} {a : Nat} (b : Byte) (ha : a < memSize) :
    Memory.read (Memory.write m a b) a = b := by
  rw [Memory.write, if_pos ha]
  exact Memory.read_place_same fun c hc => by simpa using (List.mem_filter.mp hc).2

/-- A write leaves every other address alone. -/
theorem Memory.read_write_other {m : Memory} {a a' : Nat} (b : Byte) (h : a' ≠ a) :
    Memory.read (Memory.write m a b) a' = Memory.read m a' := by
  unfold Memory.write
  split
  · rw [Memory.read_place_other h, Memory.read_filter_other h]
  · rfl

/-- Bytes stored at consecutive addresses leave every address outside them alone. -/
theorem Memory.read_store_outside {m : Memory} {base a : Nat} {bytes : List Byte}
    (h : a < base ∨ base + bytes.length ≤ a) : Memory.read (Memory.store m base bytes) a = Memory.read m a := by
  induction bytes generalizing m base with
  | nil => rfl
  | cons b rest ih =>
    simp only [List.length_cons] at h
    rw [Memory.store, ih (by omega), Memory.read_write_other b (by omega)]

/-- Bytes stored at consecutive addresses inside memory are read back. -/
theorem Memory.read_store_inside {m : Memory} {base k : Nat} {bytes : List Byte} (hk : k < bytes.length)
    (hin : base + bytes.length ≤ memSize) : Memory.read (Memory.store m base bytes) (base + k) = bytes[k] := by
  induction bytes generalizing m base k with
  | nil => simp at hk
  | cons b rest ih =>
    simp only [List.length_cons] at hk hin
    cases k with
    | zero =>
      rw [Memory.store, Memory.read_store_outside (by omega)]
      exact Memory.read_write_same b (by omega)
    | succ k =>
      have := ih (m := Memory.write m base b) (base := base + 1) (k := k) (by omega) (by omega)
      rw [Memory.store, show base + (k + 1) = base + 1 + k by omega, this]
      rfl

/-- The bytes of an image are read back from where they were placed. -/
theorem Memory.read_image_below {base a : Nat} {rom : List Byte} (h : a < base) :
    Memory.read (Memory.image base rom) a = unlisted a := by
  induction rom generalizing base with
  | nil => rfl
  | cons b rest ih =>
    have hne : base ≠ a := by omega
    by_cases hb : b = unlisted base <;> simp [Memory.image, Memory.read, hb, hne, ih (show a < base + 1 by omega)]

/-- Byte `k` of an image is at `base + k`. -/
theorem Memory.read_image_inside {base k : Nat} {rom : List Byte} (hk : k < rom.length) :
    Memory.read (Memory.image base rom) (base + k) = rom[k] := by
  induction rom generalizing base k with
  | nil => simp at hk
  | cons b rest ih =>
    cases k with
    | zero =>
      by_cases hb : b = unlisted base
      · simp [Memory.image, hb, Memory.read_image_below]
      · simp [Memory.image, Memory.read, hb]
    | succ k =>
      have hk' : k < rest.length := by simpa using hk
      have hne : base ≠ base + (k + 1) := by omega
      have := ih (base := base + 1) hk'
      rw [show base + 1 + k = base + (k + 1) by omega] at this
      by_cases hb : b = unlisted base
      · simpa [Memory.image, hb] using this
      · simpa [Memory.image, Memory.read, hb] using this

/-- Above an image memory reads as at reset. -/
theorem Memory.read_image_above {base a : Nat} {rom : List Byte} (h : base + rom.length ≤ a) :
    Memory.read (Memory.image base rom) a = unlisted a := by
  induction rom generalizing base with
  | nil => rfl
  | cons b rest ih =>
    simp only [List.length_cons] at h
    have hne : base ≠ a := by omega
    have := ih (base := base + 1) (by omega)
    by_cases hb : b = unlisted base
    · simpa [Memory.image, hb] using this
    · simpa [Memory.image, Memory.read, hb, hne] using this

/-! ## The canonical form -/

theorem Memory.wfFrom_mono {lo lo' : Nat} {m : Memory} (h : lo' ≤ lo) (hm : Memory.wfFrom lo m = true) :
    Memory.wfFrom lo' m = true := by
  cases m with
  | nil => rfl
  | cons c rest =>
    obtain ⟨a, b⟩ := c
    simp only [Memory.wfFrom, Bool.and_eq_true, decide_eq_true_eq] at hm ⊢
    exact ⟨⟨⟨by omega, hm.1.1.2⟩, hm.1.2⟩, hm.2⟩

theorem Memory.wfFrom_filter {lo : Nat} {m : Memory} (p : Host.Cell → Bool) (hm : Memory.wfFrom lo m = true) :
    Memory.wfFrom lo (m.filter p) = true := by
  induction m generalizing lo with
  | nil => rfl
  | cons c rest ih =>
    obtain ⟨a, b⟩ := c
    simp only [Memory.wfFrom, Bool.and_eq_true, decide_eq_true_eq] at hm
    by_cases hp : p (a, b) = true
    · simp [List.filter, hp, Memory.wfFrom, hm, ih hm.2]
    · have := Memory.wfFrom_mono (lo' := lo) (by omega) (ih hm.2)
      simpa [List.filter, hp] using this

theorem Memory.wfFrom_place {lo a : Nat} {m : Memory} {b : Byte} (hlo : lo ≤ a) (ha : a < memSize)
    (hne : ∀ c ∈ m, c.1 ≠ a) (hm : Memory.wfFrom lo m = true) : Memory.wfFrom lo (Memory.place m a b) = true := by
  induction m generalizing lo with
  | nil => by_cases hb : b = unlisted a <;> simp [Memory.place, Memory.wfFrom, hb, hlo, ha]
  | cons c rest ih =>
    obtain ⟨k, d⟩ := c
    have hk : k ≠ a := hne (k, d) (by simp)
    have hrest : ∀ c ∈ rest, c.1 ≠ a := fun c hc => hne c (by simp [hc])
    have hm' := hm
    simp only [Memory.wfFrom, Bool.and_eq_true, decide_eq_true_eq] at hm
    by_cases hlt : k < a
    · simp [Memory.place, hlt, Memory.wfFrom, hm, ih (show k + 1 ≤ a by omega) hrest hm.2]
    · by_cases hb : b = unlisted a
      · simpa [Memory.place, hlt, hb] using hm'
      · have hak : a + 1 ≤ k := by omega
        simp [Memory.place, hlt, hb, Memory.wfFrom, hlo, ha, hm, hak]

/-- Writing a byte keeps the canonical form. -/
theorem Memory.wf_write {m : Memory} (a : Nat) (b : Byte) (hm : Memory.wf m = true) :
    Memory.wf (Memory.write m a b) = true := by
  unfold Memory.write
  split
  · rename_i ha
    refine Memory.wfFrom_place (Nat.zero_le a) ha (fun c hc => ?_) (Memory.wfFrom_filter _ hm)
    simpa using (List.mem_filter.mp hc).2
  · exact hm

/-- Storing bytes keeps the canonical form. -/
theorem Memory.wf_store {m : Memory} (base : Nat) (bytes : List Byte) (hm : Memory.wf m = true) :
    Memory.wf (Memory.store m base bytes) = true := by
  induction bytes generalizing m base with
  | nil => exact hm
  | cons b rest ih => exact ih (base + 1) (Memory.wf_write base b hm)

/-- An image that fits in memory is in canonical form. -/
theorem Memory.wfFrom_image {base : Nat} {rom : List Byte} (h : base + rom.length ≤ memSize) :
    Memory.wfFrom base (Memory.image base rom) = true := by
  induction rom generalizing base with
  | nil => rfl
  | cons b rest ih =>
    simp only [List.length_cons] at h
    have hrest := ih (base := base + 1) (by omega)
    by_cases hb : b = unlisted base
    · simpa [Memory.image, hb] using Memory.wfFrom_mono (Nat.le_succ base) hrest
    · simp [Memory.image, hb, Memory.wfFrom, hrest, show base < memSize by omega]

/-- The memory of the reset state is in canonical form. -/
theorem State.reset_mem_wf : Memory.wf State.reset.mem = true := rfl

end Sys2Proof.Machine
end

