-- ==== Sys2Proof/Laws/State.lean ====
section
/-! SUPPORT. What each named update of the state (Machine/Ops.lean) does to each field: one lemma per field per update,
true by `rfl`, so that no later proof unfolds a record update. `reg` is a reading of `v`. -/

namespace Sys2Proof.Machine

variable (s : State)

/-! ### `setReg` -/

@[simp] theorem State.setReg_mem (r : Reg) (b : Byte) : (s.setReg r b).mem = s.mem := rfl
@[simp] theorem State.setReg_v (r : Reg) (b : Byte) : (s.setReg r b).v = s.v.set r b := rfl
@[simp] theorem State.setReg_index (r : Reg) (b : Byte) : (s.setReg r b).index = s.index := rfl
@[simp] theorem State.setReg_pc (r : Reg) (b : Byte) : (s.setReg r b).pc = s.pc := rfl
@[simp] theorem State.setReg_sp (r : Reg) (b : Byte) : (s.setReg r b).sp = s.sp := rfl
@[simp] theorem State.setReg_stack (r : Reg) (b : Byte) : (s.setReg r b).stack = s.stack := rfl
@[simp] theorem State.setReg_dt (r : Reg) (b : Byte) : (s.setReg r b).dt = s.dt := rfl
@[simp] theorem State.setReg_st (r : Reg) (b : Byte) : (s.setReg r b).st = s.st := rfl
@[simp] theorem State.setReg_keys (r : Reg) (b : Byte) : (s.setReg r b).keys = s.keys := rfl
@[simp] theorem State.setReg_kw (r : Reg) (b : Byte) : (s.setReg r b).kw = s.kw := rfl
@[simp] theorem State.setReg_fb (r : Reg) (b : Byte) : (s.setReg r b).fb = s.fb := rfl
@[simp] theorem State.setReg_run (r : Reg) (b : Byte) : (s.setReg r b).run = s.run := rfl
@[simp] theorem State.setReg_draws (r : Reg) (b : Byte) : (s.setReg r b).draws = s.draws := rfl
@[simp] theorem State.setReg_timeline (r : Reg) (b : Byte) : (s.setReg r b).timeline = s.timeline := rfl

/-! ### `setIndex` -/

@[simp] theorem State.setIndex_mem (w : Word) : (s.setIndex w).mem = s.mem := rfl
@[simp] theorem State.setIndex_v (w : Word) : (s.setIndex w).v = s.v := rfl
@[simp] theorem State.setIndex_index (w : Word) : (s.setIndex w).index = w := rfl
@[simp] theorem State.setIndex_pc (w : Word) : (s.setIndex w).pc = s.pc := rfl
@[simp] theorem State.setIndex_sp (w : Word) : (s.setIndex w).sp = s.sp := rfl
@[simp] theorem State.setIndex_stack (w : Word) : (s.setIndex w).stack = s.stack := rfl
@[simp] theorem State.setIndex_dt (w : Word) : (s.setIndex w).dt = s.dt := rfl
@[simp] theorem State.setIndex_st (w : Word) : (s.setIndex w).st = s.st := rfl
@[simp] theorem State.setIndex_keys (w : Word) : (s.setIndex w).keys = s.keys := rfl
@[simp] theorem State.setIndex_kw (w : Word) : (s.setIndex w).kw = s.kw := rfl
@[simp] theorem State.setIndex_fb (w : Word) : (s.setIndex w).fb = s.fb := rfl
@[simp] theorem State.setIndex_run (w : Word) : (s.setIndex w).run = s.run := rfl
@[simp] theorem State.setIndex_draws (w : Word) : (s.setIndex w).draws = s.draws := rfl
@[simp] theorem State.setIndex_timeline (w : Word) : (s.setIndex w).timeline = s.timeline := rfl
@[simp] theorem State.setIndex_reg (w : Word) (q : Reg) : (s.setIndex w).reg q = s.reg q := rfl

/-! ### `setMem` -/

@[simp] theorem State.setMem_mem (m : Memory) : (s.setMem m).mem = m := rfl
@[simp] theorem State.setMem_v (m : Memory) : (s.setMem m).v = s.v := rfl
@[simp] theorem State.setMem_index (m : Memory) : (s.setMem m).index = s.index := rfl
@[simp] theorem State.setMem_pc (m : Memory) : (s.setMem m).pc = s.pc := rfl
@[simp] theorem State.setMem_sp (m : Memory) : (s.setMem m).sp = s.sp := rfl
@[simp] theorem State.setMem_stack (m : Memory) : (s.setMem m).stack = s.stack := rfl
@[simp] theorem State.setMem_dt (m : Memory) : (s.setMem m).dt = s.dt := rfl
@[simp] theorem State.setMem_st (m : Memory) : (s.setMem m).st = s.st := rfl
@[simp] theorem State.setMem_keys (m : Memory) : (s.setMem m).keys = s.keys := rfl
@[simp] theorem State.setMem_kw (m : Memory) : (s.setMem m).kw = s.kw := rfl
@[simp] theorem State.setMem_fb (m : Memory) : (s.setMem m).fb = s.fb := rfl
@[simp] theorem State.setMem_run (m : Memory) : (s.setMem m).run = s.run := rfl
@[simp] theorem State.setMem_draws (m : Memory) : (s.setMem m).draws = s.draws := rfl
@[simp] theorem State.setMem_timeline (m : Memory) : (s.setMem m).timeline = s.timeline := rfl
@[simp] theorem State.setMem_reg (m : Memory) (q : Reg) : (s.setMem m).reg q = s.reg q := rfl

/-! ### `setFb` -/

@[simp] theorem State.setFb_mem (f : Frame) : (s.setFb f).mem = s.mem := rfl
@[simp] theorem State.setFb_v (f : Frame) : (s.setFb f).v = s.v := rfl
@[simp] theorem State.setFb_index (f : Frame) : (s.setFb f).index = s.index := rfl
@[simp] theorem State.setFb_pc (f : Frame) : (s.setFb f).pc = s.pc := rfl
@[simp] theorem State.setFb_sp (f : Frame) : (s.setFb f).sp = s.sp := rfl
@[simp] theorem State.setFb_stack (f : Frame) : (s.setFb f).stack = s.stack := rfl
@[simp] theorem State.setFb_dt (f : Frame) : (s.setFb f).dt = s.dt := rfl
@[simp] theorem State.setFb_st (f : Frame) : (s.setFb f).st = s.st := rfl
@[simp] theorem State.setFb_keys (f : Frame) : (s.setFb f).keys = s.keys := rfl
@[simp] theorem State.setFb_kw (f : Frame) : (s.setFb f).kw = s.kw := rfl
@[simp] theorem State.setFb_fb (f : Frame) : (s.setFb f).fb = f := rfl
@[simp] theorem State.setFb_run (f : Frame) : (s.setFb f).run = s.run := rfl
@[simp] theorem State.setFb_draws (f : Frame) : (s.setFb f).draws = s.draws := rfl
@[simp] theorem State.setFb_timeline (f : Frame) : (s.setFb f).timeline = s.timeline := rfl
@[simp] theorem State.setFb_reg (f : Frame) (q : Reg) : (s.setFb f).reg q = s.reg q := rfl

/-! ### `setDt` -/

@[simp] theorem State.setDt_mem (b : Byte) : (s.setDt b).mem = s.mem := rfl
@[simp] theorem State.setDt_v (b : Byte) : (s.setDt b).v = s.v := rfl
@[simp] theorem State.setDt_index (b : Byte) : (s.setDt b).index = s.index := rfl
@[simp] theorem State.setDt_pc (b : Byte) : (s.setDt b).pc = s.pc := rfl
@[simp] theorem State.setDt_sp (b : Byte) : (s.setDt b).sp = s.sp := rfl
@[simp] theorem State.setDt_stack (b : Byte) : (s.setDt b).stack = s.stack := rfl
@[simp] theorem State.setDt_dt (b : Byte) : (s.setDt b).dt = b := rfl
@[simp] theorem State.setDt_st (b : Byte) : (s.setDt b).st = s.st := rfl
@[simp] theorem State.setDt_keys (b : Byte) : (s.setDt b).keys = s.keys := rfl
@[simp] theorem State.setDt_kw (b : Byte) : (s.setDt b).kw = s.kw := rfl
@[simp] theorem State.setDt_fb (b : Byte) : (s.setDt b).fb = s.fb := rfl
@[simp] theorem State.setDt_run (b : Byte) : (s.setDt b).run = s.run := rfl
@[simp] theorem State.setDt_draws (b : Byte) : (s.setDt b).draws = s.draws := rfl
@[simp] theorem State.setDt_timeline (b : Byte) : (s.setDt b).timeline = s.timeline := rfl
@[simp] theorem State.setDt_reg (b : Byte) (q : Reg) : (s.setDt b).reg q = s.reg q := rfl

/-! ### `setSt` -/

@[simp] theorem State.setSt_mem (b : Byte) : (s.setSt b).mem = s.mem := rfl
@[simp] theorem State.setSt_v (b : Byte) : (s.setSt b).v = s.v := rfl
@[simp] theorem State.setSt_index (b : Byte) : (s.setSt b).index = s.index := rfl
@[simp] theorem State.setSt_pc (b : Byte) : (s.setSt b).pc = s.pc := rfl
@[simp] theorem State.setSt_sp (b : Byte) : (s.setSt b).sp = s.sp := rfl
@[simp] theorem State.setSt_stack (b : Byte) : (s.setSt b).stack = s.stack := rfl
@[simp] theorem State.setSt_dt (b : Byte) : (s.setSt b).dt = s.dt := rfl
@[simp] theorem State.setSt_st (b : Byte) : (s.setSt b).st = b := rfl
@[simp] theorem State.setSt_keys (b : Byte) : (s.setSt b).keys = s.keys := rfl
@[simp] theorem State.setSt_kw (b : Byte) : (s.setSt b).kw = s.kw := rfl
@[simp] theorem State.setSt_fb (b : Byte) : (s.setSt b).fb = s.fb := rfl
@[simp] theorem State.setSt_run (b : Byte) : (s.setSt b).run = s.run := rfl
@[simp] theorem State.setSt_draws (b : Byte) : (s.setSt b).draws = s.draws := rfl
@[simp] theorem State.setSt_timeline (b : Byte) : (s.setSt b).timeline = s.timeline := rfl
@[simp] theorem State.setSt_reg (b : Byte) (q : Reg) : (s.setSt b).reg q = s.reg q := rfl

/-! ### `setKey` -/

@[simp] theorem State.setKey_mem (k : Key) (d : Bool) : (s.setKey k d).mem = s.mem := rfl
@[simp] theorem State.setKey_v (k : Key) (d : Bool) : (s.setKey k d).v = s.v := rfl
@[simp] theorem State.setKey_index (k : Key) (d : Bool) : (s.setKey k d).index = s.index := rfl
@[simp] theorem State.setKey_pc (k : Key) (d : Bool) : (s.setKey k d).pc = s.pc := rfl
@[simp] theorem State.setKey_sp (k : Key) (d : Bool) : (s.setKey k d).sp = s.sp := rfl
@[simp] theorem State.setKey_stack (k : Key) (d : Bool) : (s.setKey k d).stack = s.stack := rfl
@[simp] theorem State.setKey_dt (k : Key) (d : Bool) : (s.setKey k d).dt = s.dt := rfl
@[simp] theorem State.setKey_st (k : Key) (d : Bool) : (s.setKey k d).st = s.st := rfl
@[simp] theorem State.setKey_keys (k : Key) (d : Bool) : (s.setKey k d).keys = s.keys.set k d := rfl
@[simp] theorem State.setKey_kw (k : Key) (d : Bool) : (s.setKey k d).kw = s.kw := rfl
@[simp] theorem State.setKey_fb (k : Key) (d : Bool) : (s.setKey k d).fb = s.fb := rfl
@[simp] theorem State.setKey_run (k : Key) (d : Bool) : (s.setKey k d).run = s.run := rfl
@[simp] theorem State.setKey_draws (k : Key) (d : Bool) : (s.setKey k d).draws = s.draws := rfl
@[simp] theorem State.setKey_timeline (k : Key) (d : Bool) : (s.setKey k d).timeline = s.timeline := rfl
@[simp] theorem State.setKey_reg (k : Key) (d : Bool) (q : Reg) : (s.setKey k d).reg q = s.reg q := rfl

/-! ### `setKw` -/

@[simp] theorem State.setKw_mem (w : Option Reg) : (s.setKw w).mem = s.mem := rfl
@[simp] theorem State.setKw_v (w : Option Reg) : (s.setKw w).v = s.v := rfl
@[simp] theorem State.setKw_index (w : Option Reg) : (s.setKw w).index = s.index := rfl
@[simp] theorem State.setKw_pc (w : Option Reg) : (s.setKw w).pc = s.pc := rfl
@[simp] theorem State.setKw_sp (w : Option Reg) : (s.setKw w).sp = s.sp := rfl
@[simp] theorem State.setKw_stack (w : Option Reg) : (s.setKw w).stack = s.stack := rfl
@[simp] theorem State.setKw_dt (w : Option Reg) : (s.setKw w).dt = s.dt := rfl
@[simp] theorem State.setKw_st (w : Option Reg) : (s.setKw w).st = s.st := rfl
@[simp] theorem State.setKw_keys (w : Option Reg) : (s.setKw w).keys = s.keys := rfl
@[simp] theorem State.setKw_kw (w : Option Reg) : (s.setKw w).kw = w := rfl
@[simp] theorem State.setKw_fb (w : Option Reg) : (s.setKw w).fb = s.fb := rfl
@[simp] theorem State.setKw_run (w : Option Reg) : (s.setKw w).run = s.run := rfl
@[simp] theorem State.setKw_draws (w : Option Reg) : (s.setKw w).draws = s.draws := rfl
@[simp] theorem State.setKw_timeline (w : Option Reg) : (s.setKw w).timeline = s.timeline := rfl
@[simp] theorem State.setKw_reg (w : Option Reg) (q : Reg) : (s.setKw w).reg q = s.reg q := rfl

/-! ### `setRun` -/

@[simp] theorem State.setRun_mem (r : RunState) : (s.setRun r).mem = s.mem := rfl
@[simp] theorem State.setRun_v (r : RunState) : (s.setRun r).v = s.v := rfl
@[simp] theorem State.setRun_index (r : RunState) : (s.setRun r).index = s.index := rfl
@[simp] theorem State.setRun_pc (r : RunState) : (s.setRun r).pc = s.pc := rfl
@[simp] theorem State.setRun_sp (r : RunState) : (s.setRun r).sp = s.sp := rfl
@[simp] theorem State.setRun_stack (r : RunState) : (s.setRun r).stack = s.stack := rfl
@[simp] theorem State.setRun_dt (r : RunState) : (s.setRun r).dt = s.dt := rfl
@[simp] theorem State.setRun_st (r : RunState) : (s.setRun r).st = s.st := rfl
@[simp] theorem State.setRun_keys (r : RunState) : (s.setRun r).keys = s.keys := rfl
@[simp] theorem State.setRun_kw (r : RunState) : (s.setRun r).kw = s.kw := rfl
@[simp] theorem State.setRun_fb (r : RunState) : (s.setRun r).fb = s.fb := rfl
@[simp] theorem State.setRun_run (r : RunState) : (s.setRun r).run = r := rfl
@[simp] theorem State.setRun_draws (r : RunState) : (s.setRun r).draws = s.draws := rfl
@[simp] theorem State.setRun_timeline (r : RunState) : (s.setRun r).timeline = s.timeline := rfl
@[simp] theorem State.setRun_reg (r : RunState) (q : Reg) : (s.setRun r).reg q = s.reg q := rfl

/-! ### `drawn` -/

@[simp] theorem State.drawn_mem : (s.drawn).mem = s.mem := rfl
@[simp] theorem State.drawn_v : (s.drawn).v = s.v := rfl
@[simp] theorem State.drawn_index : (s.drawn).index = s.index := rfl
@[simp] theorem State.drawn_pc : (s.drawn).pc = s.pc := rfl
@[simp] theorem State.drawn_sp : (s.drawn).sp = s.sp := rfl
@[simp] theorem State.drawn_stack : (s.drawn).stack = s.stack := rfl
@[simp] theorem State.drawn_dt : (s.drawn).dt = s.dt := rfl
@[simp] theorem State.drawn_st : (s.drawn).st = s.st := rfl
@[simp] theorem State.drawn_keys : (s.drawn).keys = s.keys := rfl
@[simp] theorem State.drawn_kw : (s.drawn).kw = s.kw := rfl
@[simp] theorem State.drawn_fb : (s.drawn).fb = s.fb := rfl
@[simp] theorem State.drawn_run : (s.drawn).run = s.run := rfl
@[simp] theorem State.drawn_draws : (s.drawn).draws = s.draws + 1 := rfl
@[simp] theorem State.drawn_timeline : (s.drawn).timeline = s.timeline := rfl
@[simp] theorem State.drawn_reg (q : Reg) : (s.drawn).reg q = s.reg q := rfl

/-! ### `setPc` -/

@[simp] theorem State.setPc_mem (w : Word) : (s.setPc w).mem = s.mem := rfl
@[simp] theorem State.setPc_v (w : Word) : (s.setPc w).v = s.v := rfl
@[simp] theorem State.setPc_index (w : Word) : (s.setPc w).index = s.index := rfl
@[simp] theorem State.setPc_pc (w : Word) : (s.setPc w).pc = w := rfl
@[simp] theorem State.setPc_sp (w : Word) : (s.setPc w).sp = s.sp := rfl
@[simp] theorem State.setPc_stack (w : Word) : (s.setPc w).stack = s.stack := rfl
@[simp] theorem State.setPc_dt (w : Word) : (s.setPc w).dt = s.dt := rfl
@[simp] theorem State.setPc_st (w : Word) : (s.setPc w).st = s.st := rfl
@[simp] theorem State.setPc_keys (w : Word) : (s.setPc w).keys = s.keys := rfl
@[simp] theorem State.setPc_kw (w : Word) : (s.setPc w).kw = s.kw := rfl
@[simp] theorem State.setPc_fb (w : Word) : (s.setPc w).fb = s.fb := rfl
@[simp] theorem State.setPc_run (w : Word) : (s.setPc w).run = s.run := rfl
@[simp] theorem State.setPc_draws (w : Word) : (s.setPc w).draws = s.draws := rfl
@[simp] theorem State.setPc_timeline (w : Word) : (s.setPc w).timeline = s.timeline := rfl
@[simp] theorem State.setPc_reg (w : Word) (q : Reg) : (s.setPc w).reg q = s.reg q := rfl

/-! ### `advance` -/

@[simp] theorem State.advance_mem : (s.advance).mem = s.mem := rfl
@[simp] theorem State.advance_v : (s.advance).v = s.v := rfl
@[simp] theorem State.advance_index : (s.advance).index = s.index := rfl
@[simp] theorem State.advance_pc : (s.advance).pc = s.pc + 2 := rfl
@[simp] theorem State.advance_sp : (s.advance).sp = s.sp := rfl
@[simp] theorem State.advance_stack : (s.advance).stack = s.stack := rfl
@[simp] theorem State.advance_dt : (s.advance).dt = s.dt := rfl
@[simp] theorem State.advance_st : (s.advance).st = s.st := rfl
@[simp] theorem State.advance_keys : (s.advance).keys = s.keys := rfl
@[simp] theorem State.advance_kw : (s.advance).kw = s.kw := rfl
@[simp] theorem State.advance_fb : (s.advance).fb = s.fb := rfl
@[simp] theorem State.advance_run : (s.advance).run = s.run := rfl
@[simp] theorem State.advance_draws : (s.advance).draws = s.draws := rfl
@[simp] theorem State.advance_timeline : (s.advance).timeline = s.timeline := rfl
@[simp] theorem State.advance_reg (q : Reg) : (s.advance).reg q = s.reg q := rfl

/-! ### `skip` -/

@[simp] theorem State.skip_mem : (s.skip).mem = s.mem := rfl
@[simp] theorem State.skip_v : (s.skip).v = s.v := rfl
@[simp] theorem State.skip_index : (s.skip).index = s.index := rfl
@[simp] theorem State.skip_pc : (s.skip).pc = s.pc + 4 := rfl
@[simp] theorem State.skip_sp : (s.skip).sp = s.sp := rfl
@[simp] theorem State.skip_stack : (s.skip).stack = s.stack := rfl
@[simp] theorem State.skip_dt : (s.skip).dt = s.dt := rfl
@[simp] theorem State.skip_st : (s.skip).st = s.st := rfl
@[simp] theorem State.skip_keys : (s.skip).keys = s.keys := rfl
@[simp] theorem State.skip_kw : (s.skip).kw = s.kw := rfl
@[simp] theorem State.skip_fb : (s.skip).fb = s.fb := rfl
@[simp] theorem State.skip_run : (s.skip).run = s.run := rfl
@[simp] theorem State.skip_draws : (s.skip).draws = s.draws := rfl
@[simp] theorem State.skip_timeline : (s.skip).timeline = s.timeline := rfl
@[simp] theorem State.skip_reg (q : Reg) : (s.skip).reg q = s.reg q := rfl

/-! ### `setRegFlag` -/

@[simp] theorem State.setRegFlag_mem (x : Reg) (b f : Byte) : (s.setRegFlag x b f).mem = s.mem := rfl
@[simp] theorem State.setRegFlag_v (x : Reg) (b f : Byte) : (s.setRegFlag x b f).v = (s.v.set x b).set vf f := rfl
@[simp] theorem State.setRegFlag_index (x : Reg) (b f : Byte) : (s.setRegFlag x b f).index = s.index := rfl
@[simp] theorem State.setRegFlag_pc (x : Reg) (b f : Byte) : (s.setRegFlag x b f).pc = s.pc := rfl
@[simp] theorem State.setRegFlag_sp (x : Reg) (b f : Byte) : (s.setRegFlag x b f).sp = s.sp := rfl
@[simp] theorem State.setRegFlag_stack (x : Reg) (b f : Byte) : (s.setRegFlag x b f).stack = s.stack := rfl
@[simp] theorem State.setRegFlag_dt (x : Reg) (b f : Byte) : (s.setRegFlag x b f).dt = s.dt := rfl
@[simp] theorem State.setRegFlag_st (x : Reg) (b f : Byte) : (s.setRegFlag x b f).st = s.st := rfl
@[simp] theorem State.setRegFlag_keys (x : Reg) (b f : Byte) : (s.setRegFlag x b f).keys = s.keys := rfl
@[simp] theorem State.setRegFlag_kw (x : Reg) (b f : Byte) : (s.setRegFlag x b f).kw = s.kw := rfl
@[simp] theorem State.setRegFlag_fb (x : Reg) (b f : Byte) : (s.setRegFlag x b f).fb = s.fb := rfl
@[simp] theorem State.setRegFlag_run (x : Reg) (b f : Byte) : (s.setRegFlag x b f).run = s.run := rfl
@[simp] theorem State.setRegFlag_draws (x : Reg) (b f : Byte) : (s.setRegFlag x b f).draws = s.draws := rfl
@[simp] theorem State.setRegFlag_timeline (x : Reg) (b f : Byte) : (s.setRegFlag x b f).timeline = s.timeline := rfl

/-! ### `reg` after a register write -/

@[simp] theorem State.setReg_reg_same (r : Reg) (b : Byte) : (s.setReg r b).reg r = b := by
  simp [State.reg]

theorem State.setReg_reg_ne {r q : Reg} (b : Byte) (h : q ≠ r) : (s.setReg r b).reg q = s.reg q := by
  have hv : r.val ≠ q.val := fun e => h (Fin.ext e.symm)
  simp [State.reg, hv]

/-- The flag is what remains in `VF` (40_alu.md R90). -/
@[simp] theorem State.setRegFlag_reg_vf (x : Reg) (b f : Byte) : (s.setRegFlag x b f).reg vf = f := by
  simp [State.setRegFlag]

/-- Any other destination holds the result. -/
theorem State.setRegFlag_reg_dest {x : Reg} (b f : Byte) (h : x ≠ vf) : (s.setRegFlag x b f).reg x = b := by
  rw [State.setRegFlag, State.setReg_reg_ne _ _ h, State.setReg_reg_same]

theorem State.setRegFlag_reg_ne {x q : Reg} (b f : Byte) (h : q ≠ x) (hf : q ≠ vf) :
    (s.setRegFlag x b f).reg q = s.reg q := by
  rw [State.setRegFlag, State.setReg_reg_ne _ _ hf, State.setReg_reg_ne _ _ h]

/-! ### `skipIf` -/

/-- A conditional skip moves `PC` by 4 or by 2 and changes nothing else. -/
theorem State.skipIf_eq (c : Bool) : s.skipIf c = s.setPc (s.pc + if c then 4 else 2) := by
  cases c <;> rfl

end Sys2Proof.Machine
end

