-- ==== Sys2Proof/Laws/Ops.lean ====
section
/-! SUPPORT. One lemma for each shared operation that says everything it can do; later proofs cite it and do not unfold
the operation. -/

namespace Sys2Proof.Machine

/-! ## Faults and the call stack -/

/-- A fault is a next state in which only `RUN` has changed (60_exceptions.md R165). -/
theorem raise_eq (r : HaltReason) (s : State) : raise r s = .next { s with run := .halted r } := rfl

/-- A push answers the state with the new entry, or the overflow (10_state.md R26). -/
theorem withPush_cases {s t : State} {w : Word} {k : State → State} (h : withPush s w k = .next t) :
    (∃ hsp : s.sp.val < 16,
      t = k { s with stack := s.stack.set s.sp.val w hsp, sp := ⟨s.sp.val + 1, Nat.succ_lt_succ hsp⟩ }) ∨
    (s.sp.val = 16 ∧ t = s.setRun (.halted .stackOverflow)) := by
  unfold withPush at h
  split at h
  · rename_i hsp; exact .inl ⟨hsp, by cases h; rfl⟩
  · rename_i hsp
    have := s.sp.isLt
    simp only [stackDepth_eq] at hsp
    exact .inr ⟨by omega, by cases h; rfl⟩

/-- A pop answers the state with one entry less, or the underflow (10_state.md R26). -/
theorem withPop_cases {s t : State} {k : Word → State → State} (h : withPop s k = .next t) :
    (∃ hsp : s.sp.val - 1 < 16, 0 < s.sp.val ∧
      t = k (s.stack[s.sp.val - 1]) { s with sp := ⟨s.sp.val - 1, Nat.lt_succ_of_lt hsp⟩ }) ∨
    (s.sp.val = 0 ∧ t = s.setRun (.halted .stackUnderflow)) := by
  unfold withPop at h
  split at h
  · rename_i hsp
    have := s.sp.isLt
    exact .inl ⟨by omega, hsp, by cases h; rfl⟩
  · rename_i hsp; exact .inr ⟨by omega, by cases h; rfl⟩

theorem withPush_inside {s : State} (w : Word) (k : State → State) (h : s.sp.val < 16) :
    withPush s w k =
      .next (k { s with stack := s.stack.set s.sp.val w h, sp := ⟨s.sp.val + 1, Nat.succ_lt_succ h⟩ }) := dif_pos h

theorem withPush_full {s : State} (w : Word) (k : State → State) (h : s.sp.val = 16) :
    withPush s w k = .next { s with run := .halted .stackOverflow } := by
  rw [withPush, dif_neg (by simp [h])]; rfl

theorem withPop_inside {s : State} (k : Word → State → State) (h : 0 < s.sp.val) (h' : s.sp.val - 1 < 16) :
    withPop s k = .next (k (s.stack[s.sp.val - 1]) { s with sp := ⟨s.sp.val - 1, Nat.lt_succ_of_lt h'⟩ }) := dif_pos h

theorem withPop_empty {s : State} (k : Word → State → State) (h : s.sp.val = 0) :
    withPop s k = .next { s with run := .halted .stackUnderflow } := by
  rw [withPop, dif_neg (by omega)]; rfl

/-! ## Memory spans -/

/-- The bounds check of a span (20_memory.md R52, R53). -/
theorem spanInMemory_iff (base count : Nat) :
    spanInMemory base count = true ↔ count = 0 ∨ base + (count - 1) < 4096 := by
  simp [spanInMemory]

/-- A memory instruction answers what it does in bounds, or the fault (43_index_memory.md R137). -/
theorem withSpan_cases {base count : Nat} {s done t : State} (h : withSpan base count s done = .next t) :
    (spanInMemory base count = true ∧ t = done) ∨
    (spanInMemory base count = false ∧ t = s.setRun (.halted .memoryOutOfBounds)) := by
  unfold withSpan at h
  cases hs : spanInMemory base count with
  | true => rw [hs] at h; exact .inl ⟨rfl, by cases h; rfl⟩
  | false => rw [hs] at h; exact .inr ⟨rfl, by cases h; rfl⟩

theorem withSpan_inside {base count : Nat} (s done : State) (h : count = 0 ∨ base + (count - 1) < 4096) :
    withSpan base count s done = .next done := by
  rw [withSpan, (spanInMemory_iff base count).mpr h]; rfl

theorem withSpan_outside {base count : Nat} (s done : State) (h : ¬(count = 0 ∨ base + (count - 1) < 4096)) :
    withSpan base count s done = .next { s with run := .halted .memoryOutOfBounds } := by
  rw [withSpan, Bool.eq_false_iff.mpr (mt (spanInMemory_iff base count).mp h)]; rfl

/-- The bytes loaded, one by one (20_memory.md R55). -/
theorem Memory.getElem?_load (m : Memory) (base count k : Nat) :
    (Memory.load m base count)[k]? = if k < count then some (Memory.read m (base + k)) else none := by
  by_cases h : k < count <;> simp [Memory.load, h]

@[simp] theorem Memory.length_load (m : Memory) (base count : Nat) : (Memory.load m base count).length = count := by
  simp [Memory.load]

/-- The registers after a bulk load: the first `count` from memory, the others as they were (43_index_memory.md R135). -/
theorem getElem_loadBytesInto (m : Memory) (base : Nat) (v : Vector Byte 16) (count : Nat) (r : Reg) :
    (loadBytesInto m base v count)[r] = if r.val < count then Memory.read m (base + r.val) else v[r] := by
  induction count with
  | zero => simp [loadBytesInto]
  | succ k ih =>
    by_cases hk : k = r.val
    · subst hk; simp [loadBytesInto]
    · have hlt : (r.val < k + 1) ↔ r.val < k := by omega
      simp only [loadBytesInto, Fin.getElem_fin, Vector.getElem_setIfInBounds, hk, if_false, hlt]
      simpa using ih

/-- How many bytes `FX55` stores. -/
@[simp] theorem State.length_regsUpTo (s : State) (x : Reg) : (s.regsUpTo x).length = regCount x := by
  have := x.isLt
  simp [State.regsUpTo, regCount]

/-- The bytes `FX55` stores, in order (43_index_memory.md R134). -/
theorem State.getElem_regsUpTo (s : State) (x r : Reg) (h : r.val < (s.regsUpTo x).length) :
    (s.regsUpTo x)[r.val] = s.reg r := by
  simp [State.regsUpTo, State.reg]

@[simp] theorem length_bcdDigits (b : Byte) : (bcdDigits b).length = 3 := rfl

/-! ## The fetch -/

/-- A fetch succeeds exactly when `PC + 1` is in memory (20_memory.md R56). -/
theorem State.fetchBytes_eq_none_iff (s : State) : s.fetchBytes = none ↔ 4096 ≤ s.pc.toNat + 1 := by
  simp [State.fetchBytes]

theorem State.fetchBytes_of_lt {s : State} (h : s.pc.toNat + 1 < 4096) :
    s.fetchBytes = some (Memory.read s.mem s.pc.toNat, Memory.read s.mem (s.pc.toNat + 1)) := by
  simp [State.fetchBytes, h]

theorem State.fetchWord_of_lt {s : State} (h : s.pc.toNat + 1 < 4096) :
    s.fetchWord = some (wordOfBytes (Memory.read s.mem s.pc.toNat) (Memory.read s.mem (s.pc.toNat + 1))) := by
  simp [State.fetchWord, State.fetchBytes_of_lt h]

/-! ## The blit engine -/

/-- Toggling a pixel inverts it and leaves every other pixel alone. -/
theorem Frame.pixel_toggle (f : Frame) (x y x' y' : Nat) :
    Frame.pixel (Frame.toggle f x y) x' y' =
      if x % 64 = x' % 64 ∧ y % 32 = y' % 32 then !Frame.pixel f x' y' else Frame.pixel f x' y' := by
  by_cases hy : y % 32 = y' % 32
  · by_cases hx : x % 64 = x' % 64
    · simp [Frame.pixel, Frame.toggle, hx, hy]
    · simp [Frame.pixel, Frame.toggle, hx, hy]
  · simp [Frame.pixel, Frame.toggle, hy]

/-- A clear frame has no set pixel (41_display.md R111). -/
@[simp] theorem Frame.pixel_clear (x y : Nat) : Frame.pixel Frame.clear x y = false := by
  simp [Frame.pixel, Frame.clear]

/-- Two frames with the same pixels are the same frame. -/
theorem Frame.ext_pixel {f g : Frame} (h : ∀ x < 64, ∀ y < 32, Frame.pixel f x y = Frame.pixel g x y) : f = g := by
  apply Vector.ext
  intro y hy
  apply Vector.ext
  intro x hx
  have := h x hx y hy
  simpa [Frame.pixel, Nat.mod_eq_of_lt hx, Nat.mod_eq_of_lt hy] using this

end Sys2Proof.Machine
end

