-- ==== Sys2Proof/Laws/PerInstr.lean ====
section
/-! SUPPORT. Statements made for each instruction, one lemma per constructor. The family `Encoding`: the word of an
instruction selects the instruction's row of the opcode table, `word & mask = match` (30_encoding.md R74, R75). -/

namespace Sys2Proof.Laws.Encoding

/-- The word of the instruction selects its row. -/
def Statement (i : Instr) : Prop := (rowOf i).selects (encode i) = true

/-! ## The masks of the opcode table on the formats -/

theorem formatNNN_and_op (op : BitVec 4) (nnn : BitVec 12) : formatNNN op nnn &&& 0xF000#16 = formatNNN op 0 := by
  have h : (0xF000#16 : Word) = 0xF#4 ++ 0#12 := rfl
  have ho : op &&& 0xF#4 = op := BitVec.and_allOnes
  unfold formatNNN
  rw [h, BitVec.and_append, ho, BitVec.and_zero]
  rfl

theorem formatXNN_and_op (op : BitVec 4) (x : Reg) (nn : Byte) :
    formatXNN op x nn &&& 0xF000#16 = formatXNN op 0 0 := by
  have h : (0xF000#16 : Word) = 0xF#4 ++ 0#4 ++ 0#8 := rfl
  have ho : op &&& 0xF#4 = op := BitVec.and_allOnes
  unfold formatXNN
  rw [h, BitVec.and_append, BitVec.and_append, ho, BitVec.and_zero, BitVec.and_zero]
  rfl

theorem formatXNN_and_op_nn (op : BitVec 4) (x : Reg) (nn : Byte) :
    formatXNN op x nn &&& 0xF0FF#16 = formatXNN op 0 nn := by
  have h : (0xF0FF#16 : Word) = 0xF#4 ++ 0#4 ++ 0xFF#8 := rfl
  have ho : op &&& 0xF#4 = op := BitVec.and_allOnes
  have hn : nn &&& 0xFF#8 = nn := BitVec.and_allOnes
  unfold formatXNN
  rw [h, BitVec.and_append, BitVec.and_append, ho, hn, BitVec.and_zero]
  rfl

theorem formatXYN_and_op (op : BitVec 4) (x y : Reg) (n : BitVec 4) :
    formatXYN op x y n &&& 0xF000#16 = formatXYN op 0 0 0 := by
  have h : (0xF000#16 : Word) = 0xF#4 ++ 0#4 ++ 0#4 ++ 0#4 := rfl
  have ho : op &&& 0xF#4 = op := BitVec.and_allOnes
  unfold formatXYN
  rw [h, BitVec.and_append, BitVec.and_append, BitVec.and_append, ho, BitVec.and_zero, BitVec.and_zero, BitVec.and_zero]
  rfl

theorem formatXYN_and_op_n (op : BitVec 4) (x y : Reg) (n : BitVec 4) :
    formatXYN op x y n &&& 0xF00F#16 = formatXYN op 0 0 n := by
  have h : (0xF00F#16 : Word) = 0xF#4 ++ 0#4 ++ 0#4 ++ 0xF#4 := rfl
  have ho : op &&& 0xF#4 = op := BitVec.and_allOnes
  have hn : n &&& 0xF#4 = n := BitVec.and_allOnes
  unfold formatXYN
  rw [h, BitVec.and_append, BitVec.and_append, BitVec.and_append, ho, hn, BitVec.and_zero, BitVec.and_zero]
  rfl

/-! ## The instructions -/

/-- A word whose masked bits are the row's fixed bits selects the row. -/
theorem statement_of_masked {i : Instr} (h : encode i &&& (rowOf i).mask = (rowOf i).fixed) : Statement i := by
  simp [Statement, OpcodeRow.selects, h]

theorem cls : Statement .cls := statement_of_masked rfl

theorem ret : Statement .ret := statement_of_masked rfl

theorem jp (nnn : BitVec 12) : Statement (.jp nnn) := statement_of_masked (formatNNN_and_op _ _)

theorem call (nnn : BitVec 12) : Statement (.call nnn) := statement_of_masked (formatNNN_and_op _ _)

theorem seImm (x : Reg) (nn : Byte) : Statement (.seImm x nn) := statement_of_masked (formatXNN_and_op _ _ _)

theorem sneImm (x : Reg) (nn : Byte) : Statement (.sneImm x nn) := statement_of_masked (formatXNN_and_op _ _ _)

theorem seReg (x : Reg) (y : Reg) : Statement (.seReg x y) := statement_of_masked (formatXYN_and_op_n _ _ _ _)

theorem ldImm (x : Reg) (nn : Byte) : Statement (.ldImm x nn) := statement_of_masked (formatXNN_and_op _ _ _)

theorem addImm (x : Reg) (nn : Byte) : Statement (.addImm x nn) := statement_of_masked (formatXNN_and_op _ _ _)

theorem ldReg (x : Reg) (y : Reg) : Statement (.ldReg x y) := statement_of_masked (formatXYN_and_op_n _ _ _ _)

theorem orReg (x : Reg) (y : Reg) : Statement (.orReg x y) := statement_of_masked (formatXYN_and_op_n _ _ _ _)

theorem andReg (x : Reg) (y : Reg) : Statement (.andReg x y) := statement_of_masked (formatXYN_and_op_n _ _ _ _)

theorem xorReg (x : Reg) (y : Reg) : Statement (.xorReg x y) := statement_of_masked (formatXYN_and_op_n _ _ _ _)

theorem addReg (x : Reg) (y : Reg) : Statement (.addReg x y) := statement_of_masked (formatXYN_and_op_n _ _ _ _)

theorem sub (x : Reg) (y : Reg) : Statement (.sub x y) := statement_of_masked (formatXYN_and_op_n _ _ _ _)

theorem shr (x : Reg) (y : Reg) : Statement (.shr x y) := statement_of_masked (formatXYN_and_op_n _ _ _ _)

theorem subn (x : Reg) (y : Reg) : Statement (.subn x y) := statement_of_masked (formatXYN_and_op_n _ _ _ _)

theorem shl (x : Reg) (y : Reg) : Statement (.shl x y) := statement_of_masked (formatXYN_and_op_n _ _ _ _)

theorem sneReg (x : Reg) (y : Reg) : Statement (.sneReg x y) := statement_of_masked (formatXYN_and_op_n _ _ _ _)

theorem ldI (nnn : BitVec 12) : Statement (.ldI nnn) := statement_of_masked (formatNNN_and_op _ _)

theorem jpV0 (nnn : BitVec 12) : Statement (.jpV0 nnn) := statement_of_masked (formatNNN_and_op _ _)

theorem rnd (x : Reg) (nn : Byte) : Statement (.rnd x nn) := statement_of_masked (formatXNN_and_op _ _ _)

theorem drw (x : Reg) (y : Reg) (n : BitVec 4) : Statement (.drw x y n) := statement_of_masked (formatXYN_and_op _ _ _ _)

theorem skp (x : Reg) : Statement (.skp x) := statement_of_masked (formatXNN_and_op_nn _ _ _)

theorem sknp (x : Reg) : Statement (.sknp x) := statement_of_masked (formatXNN_and_op_nn _ _ _)

theorem ldVxDt (x : Reg) : Statement (.ldVxDt x) := statement_of_masked (formatXNN_and_op_nn _ _ _)

theorem ldVxK (x : Reg) : Statement (.ldVxK x) := statement_of_masked (formatXNN_and_op_nn _ _ _)

theorem ldDtVx (x : Reg) : Statement (.ldDtVx x) := statement_of_masked (formatXNN_and_op_nn _ _ _)

theorem ldStVx (x : Reg) : Statement (.ldStVx x) := statement_of_masked (formatXNN_and_op_nn _ _ _)

theorem addI (x : Reg) : Statement (.addI x) := statement_of_masked (formatXNN_and_op_nn _ _ _)

theorem ldF (x : Reg) : Statement (.ldF x) := statement_of_masked (formatXNN_and_op_nn _ _ _)

theorem ldB (x : Reg) : Statement (.ldB x) := statement_of_masked (formatXNN_and_op_nn _ _ _)

theorem stRegs (x : Reg) : Statement (.stRegs x) := statement_of_masked (formatXNN_and_op_nn _ _ _)

theorem ldRegs (x : Reg) : Statement (.ldRegs x) := statement_of_masked (formatXNN_and_op_nn _ _ _)

end Sys2Proof.Laws.Encoding
end

