-- ==== Sys2Proof/Laws/Step.lean ====
section
/-! SUPPORT. What a step can do, said once: the cases of an instruction cycle (60_exceptions.md R176) and of the timeline
(R178). Every proof about `step` goes through these. -/

namespace Sys2Proof.Machine

/-- The decoder on two bytes is the decoder on their word (20_memory.md R54). -/
theorem decode_pair (hi lo : Byte) :
    decode [hi, lo] = (decodeWord (wordOfBytes hi lo)).map fun i => (i, []) := by
  simp only [decode]
  cases decodeWord (wordOfBytes hi lo) <;> rfl

/-- Everything an instruction cycle can do when it answers a next state. -/
theorem cycle_cases {s t : State} (h : cycle s = .next t) :
    (s.run ≠ .running ∧ t = s) ∨
    (s.run = .running ∧ s.kw ≠ none ∧ t = s) ∨
    (s.run = .running ∧ s.kw = none ∧ s.fetchWord = none ∧ t = s.setRun (.halted .memoryOutOfBounds)) ∨
    (∃ w e, s.run = .running ∧ s.kw = none ∧ s.fetchWord = some w ∧ decodeWord w = .error e ∧
      t = s.setRun (.halted .invalidOpcode)) ∨
    (∃ w i, s.run = .running ∧ s.kw = none ∧ s.fetchWord = some w ∧ decodeWord w = .ok i ∧ exec i s = .next t) := by
  unfold cycle at h
  split at h
  · rename_i hrun
    split at h
    · rename_i x hkw
      exact .inr (.inl ⟨hrun, by simp [hkw], by cases h; rfl⟩)
    · rename_i hkw
      split at h
      · rename_i hf
        exact .inr (.inr (.inl ⟨hrun, hkw, by simp [State.fetchWord, hf], by cases h; rfl⟩))
      · rename_i hi lo hf
        have hw : s.fetchWord = some (wordOfBytes hi lo) := by simp [State.fetchWord, hf]
        rw [decode_pair] at h
        cases hd : decodeWord (wordOfBytes hi lo) with
        | ok i =>
          rw [hd] at h
          exact .inr (.inr (.inr (.inr ⟨_, i, hrun, hkw, hw, hd, h⟩)))
        | error e =>
          rw [hd] at h
          exact .inr (.inr (.inr (.inl ⟨_, e, hrun, hkw, hw, hd, by cases h; rfl⟩)))
  · rename_i hrun
    exact .inl ⟨hrun, by cases h; rfl⟩

/-- A step is a cycle, or performs the oldest event placed on the timeline. -/
theorem step_cases {s t : State} (h : step s = .next t) :
    (s.timeline = [] ∧ cycle s = .next t) ∨
    (∃ e rest, s.timeline = e :: rest ∧ perform e { s with timeline := rest } = .next t) := by
  unfold step advanceTimeline at h
  split at h
  · rename_i ht; exact .inl ⟨ht, h⟩
  · rename_i e rest ht; exact .inr ⟨e, rest, ht, h⟩

/-- An event of another agent than the executor answers the state its function gives. -/
theorem perform_cases {e : Event} {s t : State} (h : perform e s = .next t) :
    (e = .cycle ∧ cycle s = .next t) ∨ (e = .tick ∧ t = tick s) ∨ (∃ k, e = .keyDown k ∧ t = keyDown k s) ∨
    (∃ k, e = .keyUp k ∧ t = keyUp k s) ∨ (∃ rom, e = .start rom ∧ t = start rom s) ∨ (e = .stop ∧ t = stop s) ∨
    (e = .togglePause ∧ t = togglePause s) := by
  cases e <;> simp only [perform, Host.Outcome.next.injEq] at h <;> simp_all

/-! ## The other agents -/

/-- A key-down resolves the wait it finds armed, and else changes only the key (60_exceptions.md R174, R177). -/
theorem resolveWait_cases (k : Key) (s : State) :
    (s.kw = none ∧ resolveWait k s = s) ∨
    (∃ x, s.kw = some x ∧ resolveWait k s = ((s.setReg x (BitVec.ofNat 8 k.val)).setKw none).advance) := by
  unfold resolveWait
  cases h : s.kw with
  | none => exact .inl ⟨rfl, rfl⟩
  | some x => exact .inr ⟨x, rfl, rfl⟩

/-- Decrementing a counter is subtraction that stops at 0 (60_exceptions.md R173). -/
theorem toNat_decrement (b : Byte) : (decrement b).toNat = b.toNat - 1 := by
  unfold decrement
  split
  · rename_i h; simp [h]
  · rename_i h
    have hb : 1 ≤ b.toNat := Nat.one_le_iff_ne_zero.mpr fun e => h (BitVec.eq_of_toNat_eq (by simpa using e))
    simpa using BitVec.toNat_sub_of_le (x := b) (y := 1) (by simpa [BitVec.le_def] using hb)

end Sys2Proof.Machine
end

