-- ==== Sys2Proof/Tests/Slice0.lean ====
section
/-! SUPPORT. The model's own tests: a smoke test of each check, one word written out from 30_encoding.md R75 for each
constructor, one step at a time from the vectors of 95_test_vectors.md (their ids are in the names), and for each statement
of Certificates/Slice0/Obligations.lean with hypotheses a witness that meets them. -/

namespace Sys2Proof.Tests

open Sys2Proof Sys2Proof.Machine

/-! ## Checks refuse ill-formed terms -/

theorem test_rom_empty_refused : romNonempty [] = false ∧ romWellFormed [] = false := by decide

/-- E10: 3585 bytes are one too many. -/
theorem test_rom_oversized_refused : romFits (List.replicate 3585 0) = false := by
  unfold romFits
  rw [List.length_replicate]
  decide

/-- E10: 1 byte and 3584 bytes are accepted. -/
theorem test_rom_bounds_accepted : romWellFormed [0x60] = true ∧ romFits (List.replicate 3584 0) = true := by
  unfold romWellFormed romFits
  rw [List.length_replicate]
  decide

theorem test_memory_unsorted_refused : Memory.wf [(0x300, 1), (0x2FF, 1)] = false := by decide
theorem test_memory_repeat_refused : Memory.wf [(0x300, 1), (0x300, 2)] = false := by decide
theorem test_memory_outside_refused : Memory.wf [(4096, 1)] = false := by decide
theorem test_memory_default_refused : Memory.wf [(0x300, 0)] = false ∧ Memory.wf [(0, 0xF0)] = false := by decide
theorem test_memory_wellformed : Memory.wf [(0, 0), (0xFFF, 7)] = true := by decide

/-! ## Words decode (30_encoding.md R75, 95_test_vectors.md section 2.1) -/

theorem test_decode_control : decodeWord 0x00E0 = .ok .cls ∧ decodeWord 0x00EE = .ok .ret ∧
    decodeWord 0x1ABC = .ok (.jp 0xABC) ∧ decodeWord 0x2FFF = .ok (.call 0xFFF) ∧
    decodeWord 0x3A7F = .ok (.seImm 10 0x7F) ∧ decodeWord 0x4007 = .ok (.sneImm 0 7) ∧
    decodeWord 0x5120 = .ok (.seReg 1 2) ∧ decodeWord 0x9AB0 = .ok (.sneReg 10 11) ∧
    decodeWord 0xB300 = .ok (.jpV0 0x300) := by decide

theorem test_decode_alu : decodeWord 0x6005 = .ok (.ldImm 0 5) ∧ decodeWord 0x7FFF = .ok (.addImm 15 0xFF) ∧
    decodeWord 0x8AB0 = .ok (.ldReg 10 11) ∧ decodeWord 0x8AB1 = .ok (.orReg 10 11) ∧
    decodeWord 0x8AB2 = .ok (.andReg 10 11) ∧ decodeWord 0x8AB3 = .ok (.xorReg 10 11) ∧
    decodeWord 0x8AB4 = .ok (.addReg 10 11) ∧ decodeWord 0x8AB5 = .ok (.sub 10 11) ∧
    decodeWord 0x8AB6 = .ok (.shr 10 11) ∧ decodeWord 0x8AB7 = .ok (.subn 10 11) ∧
    decodeWord 0x8ABE = .ok (.shl 10 11) ∧ decodeWord 0xC00F = .ok (.rnd 0 0x0F) := by decide

theorem test_decode_devices : decodeWord 0xD125 = .ok (.drw 1 2 5) ∧ decodeWord 0xD120 = .ok (.drw 1 2 0) ∧
    decodeWord 0xE39E = .ok (.skp 3) ∧ decodeWord 0xE3A1 = .ok (.sknp 3) ∧ decodeWord 0xF407 = .ok (.ldVxDt 4) ∧
    decodeWord 0xF30A = .ok (.ldVxK 3) ∧ decodeWord 0xF115 = .ok (.ldDtVx 1) ∧
    decodeWord 0xF118 = .ok (.ldStVx 1) := by decide

theorem test_decode_index : decodeWord 0xA123 = .ok (.ldI 0x123) ∧ decodeWord 0xF21E = .ok (.addI 2) ∧
    decodeWord 0xF029 = .ok (.ldF 0) ∧ decodeWord 0xF033 = .ok (.ldB 0) ∧ decodeWord 0xFF55 = .ok (.stRegs 15) ∧
    decodeWord 0xF265 = .ok (.ldRegs 2) := by decide

theorem test_decode_invalid : decodeWord 0x00E1 = .error .machineRoutine ∧ decodeWord 0x0123 = .error .machineRoutine ∧
    decodeWord 0x0000 = .error .machineRoutine ∧ decodeWord 0x5121 = .error .seRegNibble ∧
    decodeWord 0x8AB8 = .error .aluFunction ∧ decodeWord 0x8ABF = .error .aluFunction ∧
    decodeWord 0x9AB1 = .error .sneRegNibble ∧ decodeWord 0xE39F = .error .keyFunction ∧
    decodeWord 0xF300 = .error .miscFunction ∧ decodeWord 0xF090 = .error .miscFunction ∧
    decode [0x60] = .error .truncated := by decide

theorem test_decode_bytes_big_endian : decode [0x12, 0x34, 0x56] = .ok (.jp 0x234, [0x56]) := by decide

theorem test_encode : encode (.addReg 10 11) = 0x8AB4 ∧ encode (.drw 1 2 5) = 0xD125 ∧ encode (.jp 0xABC) = 0x1ABC ∧
    encode (.seImm 10 0x7F) = 0x3A7F ∧ encode (.ldVxK 3) = 0xF30A := by decide

theorem test_decodeTableWord : decodeTableWord 16 0xD125 = some (.drw 1 2 5) ∧ decodeTableWord 16 0xFFFF = none ∧
    decodeTableWord 8 0xE0E0 = some .cls := by decide

theorem test_table_rows : opcodeTable.length = 34 ∧ (opcodeTable.map OpcodeRow.mnemonic).Nodup := by decide

/-! ## One step -/

/-- The state that a result holds. -/
def stateOf : Result → State
  | .next t => t
  | .fault f => nomatch f
  | .refused _ => State.reset

/-- The reset state with these registers set. -/
def withRegs (l : List (Reg × Byte)) : State := l.foldl (fun s p => s.setReg p.1 p.2) State.reset

/-- One step of the machine with the word `w` placed at `PC`. -/
def runWord (w : Nat) (s : State) : State := stateOf (step (s.withFetchWord 16 w))

/-- What an instruction leaves in the registers and in `PC`. -/
def regsPc (s : State) (l : List Reg) : List Byte × Word := (l.map s.reg, s.pc)

theorem test_reset_fetch_F7 : (stateOf (step State.reset)).run = .halted .invalidOpcode ∧
    (stateOf (step State.reset)).pc = 0x200 := by decide
theorem test_fetch_top_F2 : (runWord 0x1200 { State.reset with pc := 0xFFE }).pc = 0x200 := by decide
theorem test_fetch_outside_F4 : stateOf (step { State.reset with pc := 0xFFF }) =
    { State.reset with pc := 0xFFF, run := .halted .memoryOutOfBounds } := by decide
theorem test_fetch_no_wrap_F5 :
    (stateOf (step { State.reset with pc := 0x10FE })).run = .halted .memoryOutOfBounds := by decide
theorem test_fetch_odd_F6 : regsPc (runWord 0x6007 { State.reset with pc := 0x201 }) [0] = ([7], 0x203) := by decide

theorem test_ldImm_A1 : regsPc (runWord 0x6FFF State.reset) [15] = ([0xFF], 0x202) := by decide
theorem test_addImm_A2 : regsPc (runWord 0x7001 (withRegs [(0, 0xFF), (15, 0x5A)])) [0, 15] = ([0, 0x5A], 0x202) := by
  decide
theorem test_addImm_A4 : regsPc (runWord 0x7F01 (withRegs [(15, 0xFF)])) [15] = ([0], 0x202) := by decide
theorem test_ldReg_A5 : regsPc (runWord 0x8120 (withRegs [(2, 0x3C)])) [1, 2] = ([0x3C, 0x3C], 0x202) := by decide
theorem test_or_A7 : regsPc (runWord 0x8011 (withRegs [(0, 0x0F), (1, 0xF0), (15, 0x5A)])) [0, 15] =
    ([0xFF, 0x5A], 0x202) := by decide
theorem test_and_A8 : regsPc (runWord 0x8012 (withRegs [(0, 0x3C), (1, 0x0F), (15, 0x5A)])) [0, 15] =
    ([0x0C, 0x5A], 0x202) := by decide
theorem test_xor_A9 : regsPc (runWord 0x8013 (withRegs [(0, 0xFF), (1, 0x0F), (15, 0x5A)])) [0, 15] =
    ([0xF0, 0x5A], 0x202) := by decide
theorem test_xor_A10 : regsPc (runWord 0x8003 (withRegs [(0, 0x77)])) [0] = ([0], 0x202) := by decide
theorem test_addReg_A12 : regsPc (runWord 0x8014 (withRegs [(0, 0x7F), (1, 1), (15, 1)])) [0, 15] =
    ([0x80, 0], 0x202) := by decide
theorem test_addReg_A16 : regsPc (runWord 0x8F14 (withRegs [(15, 0xF0), (1, 0x20)])) [15] = ([1], 0x202) := by decide
theorem test_sub_A20 : regsPc (runWord 0x8015 (withRegs [(0, 3), (1, 5), (15, 9)])) [0, 15] = ([0xFE, 0], 0x202) := by
  decide
theorem test_sub_A21 : regsPc (runWord 0x8015 (withRegs [(0, 7), (1, 7)])) [0, 15] = ([0, 1], 0x202) := by decide
theorem test_subn_A26 : regsPc (runWord 0x8017 (withRegs [(0, 3), (1, 5)])) [0, 15] = ([2, 1], 0x202) := by decide
theorem test_subn_A27 : regsPc (runWord 0x8017 (withRegs [(0, 5), (1, 3)])) [0, 15] = ([0xFE, 0], 0x202) := by decide

theorem test_shr_S2 :
    regsPc (shrWith .vx 0 1 (withRegs [(0, 0xAA), (1, 5)])) [0, 15, 1] = ([0x55, 0, 5], 0x202) ∧
    regsPc (shrWith .vy 0 1 (withRegs [(0, 0xAA), (1, 5)])) [0, 15, 1] = ([2, 1, 5], 0x202) := by decide
/-- S3: with `X = Y` both values of `SHIFT_SOURCE` agree. -/
theorem test_shr_S3 : regsPc (runWord 0x8006 (withRegs [(0, 1)])) [0, 15] = ([0, 1], 0x202) := by
  show regsPc (shrWith Config.shiftSource 0 0 ((withRegs [(0, 1)]).withFetchWord 16 0x8006)) [0, 15] = _
  cases Config.shiftSource <;> decide
theorem test_shl_S11 :
    regsPc (shlWith .vx 0 1 (withRegs [(1, 0xC0)])) [0, 15, 1] = ([0, 0, 0xC0], 0x202) ∧
    regsPc (shlWith .vy 0 1 (withRegs [(1, 0xC0)])) [0, 15, 1] = ([0x80, 1, 0xC0], 0x202) := by decide
theorem test_shl_S10 :
    regsPc (shlWith .vx 15 0 (withRegs [(15, 0x40), (0, 0x80)])) [15] = ([0], 0x202) ∧
    regsPc (shlWith .vy 15 0 (withRegs [(15, 0x40), (0, 0x80)])) [15] = ([1], 0x202) := by decide
theorem test_rnd_A29_A32 : regsPc (rndWith 0xB7 0 0x0F State.reset) [0] = ([7], 0x202) ∧
    regsPc (rndWith 0xFF 15 0x55 State.reset) [15] = ([0x55], 0x202) := by decide
/-- A30: any drawn byte masked with 0 is 0; the draw is counted. -/
theorem test_rnd_A30 : (runWord 0xC000 State.reset).reg 0 = 0 ∧ (runWord 0xC000 State.reset).draws = 1 := by
  show (rndWith (Config.rnd 0) 0 0 (State.reset.withFetchWord 16 0xC000).drawn).reg 0 = 0 ∧ _
  constructor
  · generalize Config.rnd 0 = b
    rw [rndWith, State.advance_reg, State.setReg_reg_same]
    exact BitVec.and_zero
  · rfl

/-! ### Display -/

/-- The sprite bytes of 95_test_vectors.md section 2.3. -/
def sprites (s : State) : State := { s with mem := [(0x300, 0x80), (0x301, 0xFF), (0x302, 0xC0)] }

/-- The columns of the set pixels of a row. -/
def rowPixels (s : State) (y : Nat) : List Nat := (List.range 64).filter fun x => Frame.pixel s.fb x y

/-- A clear frame with these pixels set. -/
def frameOf (l : List (Nat × Nat)) : Frame := l.foldl (fun f p => Frame.toggle f p.1 p.2) Frame.clear

set_option maxRecDepth 8000

theorem test_cls_G1 : (runWord 0x00E0 { withRegs [(15, 0x5A)] with fb := frameOf [(3, 4), (63, 31)] }).fb = Frame.clear ∧
    regsPc (runWord 0x00E0 { withRegs [(15, 0x5A)] with fb := frameOf [(3, 4)] }) [15] = ([0x5A], 0x202) := by decide
theorem test_drw_wrap_G4 :
    rowPixels (runWord 0xD011 { sprites (withRegs [(0, 60), (1, 0)]) with index := 0x301 }) 0 =
      [0, 1, 2, 3, 60, 61, 62, 63] := by decide
theorem test_drw_collision_G6 :
    let t := runWord 0xD011 { sprites State.reset with index := 0x302, fb := frameOf [(0, 0)] }
    rowPixels t 0 = [1] ∧ regsPc t [15] = ([1], 0x202) := by decide

/-! ### Keypad and timers -/

/-- The state with key `k` down. -/
def keyed (k : Key) (s : State) : State := s.setKey k true

theorem test_skp_K1_K3 : (runWord 0xE39E (keyed 7 (withRegs [(3, 7)]))).pc = 0x204 ∧
    (runWord 0xE39E (keyed 7 (withRegs [(3, 0x17)]))).pc = 0x202 := by decide
theorem test_sknp_K5_K6 : (runWord 0xE3A1 (keyed 7 (withRegs [(3, 7)]))).pc = 0x202 ∧
    (runWord 0xE3A1 (keyed 7 (withRegs [(3, 0xFF)]))).pc = 0x204 := by decide
theorem test_ldVxK_K7 : let t := runWord 0xF30A (keyed 2 State.reset)
    t.kw = some 3 ∧ regsPc t [3] = ([0], 0x200) := by decide
theorem test_ldVxDt_K16 : regsPc (runWord 0xF407 { State.reset with dt := 6 }) [4] = ([6], 0x202) := by decide
theorem test_ldDtVx_K17 : (runWord 0xF015 (withRegs [(0, 0x0A)])).dt = 0x0A := by decide
theorem test_ldStVx_K18_K19 : (runWord 0xF118 (withRegs [(1, 0x1E)])).buzzer = true ∧
    (runWord 0xF018 { State.reset with st := 9 }).buzzer = false := by decide

/-- The state that awaits a key for register `x`. -/
def waiting (x : Reg) (s : State) : State := s.setKw (some x)

theorem test_cycle_waits_K8 : stateOf (step (waiting 3 State.reset)) = waiting 3 State.reset := by decide
theorem test_keyDown_K9 : let t := keyDown 2 (keyed 2 (waiting 3 State.reset))
    t.kw = none ∧ t.keys[2] = true ∧ regsPc t [3] = ([2], 0x202) := by decide
theorem test_keyUp_K10 : let t := keyUp 2 (keyed 2 (waiting 3 State.reset))
    t.kw = some 3 ∧ t.keys[2] = false ∧ regsPc t [3] = ([0], 0x200) := by decide
theorem test_keyDown_VF_K11 : regsPc (keyDown 10 (waiting 15 State.reset)) [15] = ([0x0A], 0x202) := by decide
theorem test_keyDown_paused_K13 : let t := keyDown 4 { waiting 3 State.reset with run := .paused }
    t.kw = some 3 ∧ t.keys[4] = true ∧ t.pc = 0x200 := by decide
theorem test_tick_K21_K22 : (tick { State.reset with dt := 1, st := 1 }).dt = 0 ∧ (tick State.reset).dt = 0 ∧
    (tick { State.reset with dt := 3, st := 0 }).dt = 2 := by decide
theorem test_tick_paused_K23 : (tick { State.reset with dt := 3, run := .paused }).dt = 3 := by decide
theorem test_tick_waiting_K25 : (tick { waiting 3 State.reset with dt := 3 }).dt = 2 := by decide

/-! ### Index register and memory -/

theorem test_ldI_M1_M2 : (runWord 0xA000 { State.reset with index := 0xFFFF }).index = 0 ∧
    (runWord 0xAFFF State.reset).index = 0xFFF := by decide
theorem test_addI_M4_M5 : (runWord 0xF01E { withRegs [(0, 1)] with index := 0xFFF }).index = 0x1000 ∧
    (runWord 0xF01E { withRegs [(0, 2)] with index := 0xFFFF }).index = 1 := by decide
theorem test_ldF_M7_M9 : (runWord 0xF029 (withRegs [(0, 0x0F)])).index = 0x4B ∧
    (runWord 0xF029 (withRegs [(0, 0xFF)])).index = 0x4FB := by decide

/-- The bytes of memory from an address on. -/
def bytesAt (s : State) (a n : Nat) : List Byte := Memory.load s.mem a n

theorem test_ldB_M15 : bytesAt (runWord 0xF033 { withRegs [(0, 123)] with index := 0xFFD }) 0xFFD 3 = [1, 2, 3] := by
  decide
theorem test_ldB_M16 : let t := runWord 0xF033 { withRegs [(0, 123)] with index := 0xFFE }
    t.run = .halted .memoryOutOfBounds ∧ bytesAt t 0xFFE 2 = [0, 0] ∧ t.pc = 0x200 := by decide
theorem test_stRegs_M17 :
    let s := { withRegs [(0, 0x11), (1, 0x22), (2, 0x33), (3, 0x44)] with index := 0x400 }
    bytesAt (stRegsWith false 2 s) 0x400 4 = [0x11, 0x22, 0x33, 0] ∧ (stRegsWith false 2 s).index = 0x400 ∧
    (stRegsWith true 2 s).index = 0x403 := by decide
theorem test_stRegs_M19 : let t := runWord 0xF155 { withRegs [(0, 9)] with index := 0xFFF }
    t.run = .halted .memoryOutOfBounds ∧ bytesAt t 0xFFF 1 = [0] := by decide
theorem test_ldRegs_M22 :
    let s := { withRegs [(3, 0x77)] with index := 0x300, mem := [(0x300, 2), (0x301, 5), (0x302, 4), (0x303, 9)] }
    regsPc (ldRegsWith false 2 s) [0, 1, 2, 3] = ([2, 5, 4, 0x77], 0x202) ∧ (ldRegsWith true 2 s).index = 0x303 := by
  decide
theorem test_ldRegs_M23 : regsPc (runWord 0xFF65 State.reset) [0, 5, 15] = ([0xF0, 0x20, 0xF0], 0x202) := by decide

/-! ### Control -/

theorem test_ret_C7 : let t := runWord 0x00EE { State.reset with sp := 1, stack := State.reset.stack.set 0 0x206 }
    t.sp = 0 ∧ t.pc = 0x206 ∧ t.stack[0] = 0x206 := by decide
theorem test_ret_C8 : (runWord 0x00EE State.reset).run = .halted .stackUnderflow := by decide
theorem test_jp_C1 : (runWord 0x1204 State.reset).pc = 0x204 := by decide
theorem test_call_C5 : let t := runWord 0x2300 { State.reset with pc := 0xFFE, sp := 3 }
    t.sp = 4 ∧ t.pc = 0x300 ∧ t.stack[3] = 0x1000 := by decide
theorem test_call_C6 : let t := runWord 0x2300 { State.reset with sp := 16 }
    t.run = .halted .stackOverflow ∧ t.sp = 16 ∧ t.pc = 0x200 := by decide
theorem test_seImm_C9 : (runWord 0x3005 (withRegs [(0, 5)])).pc = 0x204 ∧
    (runWord 0x3005 (withRegs [(0, 6)])).pc = 0x202 := by decide
theorem test_sneImm_C10 : (runWord 0x4005 (withRegs [(0, 5)])).pc = 0x202 ∧
    (runWord 0x4005 (withRegs [(0, 6)])).pc = 0x204 := by decide
theorem test_seReg_C11 : (runWord 0x5120 (withRegs [(1, 0x2A), (2, 0x2A)])).pc = 0x204 ∧
    (runWord 0x5120 (withRegs [(1, 0x2A), (2, 0x2B)])).pc = 0x202 := by decide
theorem test_sneReg_C13 : (runWord 0x9120 (withRegs [(1, 0x2A), (2, 0x2B)])).pc = 0x204 ∧
    (runWord 0x9120 (withRegs [(1, 0x2A), (2, 0x2A)])).pc = 0x202 := by decide
theorem test_jpV0_C18_C19 : (runWord 0xBFFF (withRegs [(0, 0xFF)])).pc = 0x10FE ∧
    (runWord 0xB300 (withRegs [(0, 4), (3, 0x50)])).pc = 0x304 := by decide

/-! ### Run control -/

theorem test_start_X1 : let t := start [0x12, 0x00] { State.reset with run := .idle }
    t.run = .running ∧ bytesAt t 0x200 3 = [0x12, 0, 0] ∧ t.pc = 0x200 ∧ t.mem = [(0x200, 0x12)] := by decide
theorem test_start_ignored_X2 : start [0x12] State.reset = State.reset := by decide
theorem test_pause_X3_X5 : (togglePause State.reset).run = .paused ∧
    togglePause (togglePause State.reset) = State.reset := by decide
theorem test_stop_X7 : (stop { State.reset with run := .halted .stackOverflow }).run = .idle := by decide
theorem test_timeline : let s := { State.reset with dt := 5, timeline := [.tick, .togglePause, .tick] }
    (stateOf (step s)).dt = 4 ∧ (stateOf (step s)).timeline = [.togglePause, .tick] := by decide
/-- A word placed for the next cycle is fetched whatever `PC`, `RUN`, `KW` and the timeline were. -/
theorem test_withFetchWord :
    (runWord 0x6005 { waiting 3 State.reset with pc := 0xFFFF, run := .idle, timeline := [.tick] }).reg 0 = 5 := by decide

/-! ## Witnesses: the hypotheses of each statement can be met -/

/-- Decode then encode. -/
theorem witness_decode_then_encode : decodeWord 0x8AB4 = .ok (.addReg 10 11) := by decide
theorem witness_table_row : ∃ r ∈ opcodeTable, r.selects 0x8AB4 = true := by decide

/-- The conditions under which a cycle runs an instruction, for a placed word. -/
def Ready (s : State) (w : Word) (i : Instr) : Prop :=
  s.run = .running ∧ s.kw = none ∧ s.fetchWord = some w ∧ decodeWord w = .ok i

theorem witness_step_runs_placed : Ready (State.reset.withFetchWord 16 0x6005) 0x6005 (.ldImm 0 5) ∧
    (State.reset.withFetchWord 16 0x6005).timeline = [] := by unfold Ready; decide
theorem witness_step_runs_cycle :
    Ready { State.reset.withFetchWord 16 0x6005 with timeline := [.cycle, .tick] } 0x6005 (.ldImm 0 5) := by
  unfold Ready; decide
theorem witness_fetch_inside : ({ State.reset with pc := 0xFFE }).pc.toNat + 1 < 4096 := by decide
theorem witness_fetch_outside : 4096 ≤ ({ State.reset with pc := 0xFFF }).pc.toNat + 1 := by decide
theorem witness_gate_run : ({ State.reset with run := .paused }).run ≠ .running := by decide
theorem witness_gate_latch : (waiting 0 State.reset).kw ≠ none := by decide
theorem witness_timeline : ({ State.reset with timeline := [.tick, .stop] }).timeline = .tick :: [.stop] := by decide
theorem witness_cycle_running : State.reset.run = .running ∧ State.reset.kw = none := by decide

/-- A precise fault: a `CALL` with 16 entries in use (C6). -/
theorem witness_fault : let s := { State.reset with sp := 16 }.withFetchWord 16 0x2300
    s.run = .running ∧ ∃ t, cycle s = .next t ∧ t.run = .halted .stackOverflow := by
  refine ⟨by decide, _, rfl, by decide⟩
theorem witness_halted : let s := { State.reset with run := .halted .stackOverflow, timeline := [.tick, .keyDown 3] }
    s.run = .halted .stackOverflow ∧ ∀ e ∈ s.timeline, e ≠ .stop := by decide

/-- The two sides of `DXYN`, at the top of memory (G10, G11), and with `N = 0` (G9). -/
theorem witness_drw_inside : let s := { State.reset with index := 0xFFC }
    s.index.toNat + (4#4).toNat - 1 < 4096 := by decide
theorem witness_drw_outside : let s := { State.reset with index := 0xFFC }
    0 < (5#4).toNat ∧ 4096 ≤ s.index.toNat + (5#4).toNat - 1 := by decide
theorem witness_drw_no_rows : (0#4).toNat = 0 := by decide
theorem witness_draw_twice : let s := { sprites State.reset with index := 0x300 }
    (0 : Reg) ≠ 15 ∧ (1 : Reg) ≠ 15 ∧ s.index.toNat + (1#4).toNat - 1 < 4096 ∧
      ∀ col < 64, ∀ row < 32, s.spriteLit 0 1 1 col row = true → Frame.pixel s.fb col row = false := by
  refine ⟨by decide, by decide, by decide, fun col _ row _ _ => ?_⟩
  exact Frame.pixel_clear col row
/-- The restoration of a display on which the sprite's pixel is set, and a sprite with a 1 bit and one without. -/
theorem witness_draw_twice_bits : let s := { sprites State.reset with index := 0x302, fb := frameOf [(0, 0)] }
    Frame.pixel s.fb 0 0 = true ∧ s.spriteLit 0 1 1 0 0 = true ∧
      ∀ col < 64, ∀ row < 32, s.spriteLit 0 1 0 col row = false := by
  refine ⟨by decide, by decide, fun col _ row _ => rfl⟩

theorem witness_ldB_inside : let s := { State.reset with index := 0xFFD }
    s.index.toNat + 2 < 4096 := by decide
theorem witness_ldB_outside : let s := { State.reset with index := 0xFFE }
    4096 ≤ s.index.toNat + 2 := by decide
theorem witness_regs_inside : let s := { State.reset with index := 0xFF0 }
    s.index.toNat + (15 : Reg).val < 4096 := by decide
theorem witness_regs_outside : let s := { State.reset with index := 0xFF1 }
    4096 ≤ s.index.toNat + (15 : Reg).val := by decide

/-- P7 in small: `FX55` over the two bytes after itself stores `0x120A`. -/
theorem witness_stored_code : let s := { withRegs [(0, 0x12), (1, 0x0A)] with index := 0x202 }.withFetchWord 16 0xF155
    Ready s 0xF155 (.stRegs 1) ∧ s.timeline = [] ∧ 1 ≤ (1 : Reg).val ∧ s.index.toNat = s.pc.toNat + 2 ∧
      s.index.toNat + (1 : Reg).val < 4096 ∧ decodeWord (wordOfBytes (s.reg 0) (s.reg 1)) = .ok (.jp 0x20A) := by
  unfold Ready; decide
theorem witness_stored_code_placed :
    let s := { withRegs [(0, 0x12), (1, 0x0A)] with index := 0x202 }.withFetchWord 16 0xF155
    let s' := { s with timeline := [.cycle, .cycle, .tick] }
    Ready s' 0xF155 (.stRegs 1) ∧ s'.timeline = .cycle :: .cycle :: [.tick] ∧ s'.index.toNat = s'.pc.toNat + 2 := by
  unfold Ready; decide

theorem witness_ret_pops : 0 < ({ State.reset with sp := 16 }).sp.val := by decide
theorem witness_ret_empty : State.reset.sp.val = 0 := by decide
theorem witness_call_pushes : ({ State.reset with sp := 15 }).sp.val < 16 := by decide
theorem witness_call_full : ({ State.reset with sp := 16 }).sp.val = 16 := by decide

/-- The frames: an instruction that answers a next state, a register it does not write, an address it does not store
to. -/
theorem witness_frame_registers : (∃ t, exec (.addReg 0 1) State.reset = .next t) ∧
    writesReg (.addReg 0 1) 2 = false := ⟨⟨_, rfl⟩, by decide⟩
theorem witness_frame_memory : let s := { State.reset with index := 0x300 }
    (∃ t, exec (.ldB 0) s = .next t) ∧
      ∀ base count, storesTo (.ldB 0) s = some (base, count) → 0x303 < base ∨ base + count ≤ 0x303 := by
  refine ⟨⟨_, rfl⟩, fun base count h => ?_⟩
  have h' : ((0x300 : Nat), 3) = (base, count) := Option.some.inj h
  cases h'
  decide
theorem witness_frame_others : (∃ t, exec (.jp 0x300) State.reset = .next t) ∧ ¬writesIndex (.jp 0x300) ∧
    Instr.jp 0x300 ≠ .ret ∧ (∀ nnn, Instr.jp 0x300 ≠ .call nnn) ∧ (∀ x, Instr.jp 0x300 ≠ .ldDtVx x) ∧
    (∀ x, Instr.jp 0x300 ≠ .ldStVx x) ∧ (∀ x, Instr.jp 0x300 ≠ .ldVxK x) ∧ Instr.jp 0x300 ≠ .cls ∧
    (∀ x y n, Instr.jp 0x300 ≠ .drw x y n) ∧ (∀ x nn, Instr.jp 0x300 ≠ .rnd x nn) :=
  ⟨⟨_, rfl⟩, id, nofun, nofun, nofun, nofun, nofun, nofun, nofun, nofun⟩
/-- `PC` under an instruction outside the matrix's column that completes, under one that faults, and under `FX0A`. -/
theorem witness_frame_pc : writesPc (.ldB 0) = false ∧
    (∃ t, exec (.ldB 0) { State.reset with index := 0xFFD } = .next t ∧ t.pc = State.reset.pc + 2) ∧
    (∃ t, exec (.ldB 0) { State.reset with index := 0xFFE } = .next t ∧ t.pc = State.reset.pc) ∧
    (∃ t, exec (.ldVxK 3) State.reset = .next t ∧ t.pc = State.reset.pc) :=
  ⟨rfl, ⟨_, rfl, rfl⟩, ⟨_, rfl, rfl⟩, _, rfl, rfl⟩

theorem witness_ticks : let s := { State.reset with dt := 2, timeline := [.tick, .tick, .tick, .cycle] }
    s.run = .running ∧ s.timeline = List.replicate 3 .tick ++ [.cycle] := by decide
theorem witness_keyDown_resolves : let s := waiting 3 State.reset
    s.run = .running ∧ s.kw = some 3 := by decide
theorem witness_keyDown_paused : ({ waiting 3 State.reset with run := .paused }).run = .paused := by decide
theorem witness_keyDown_dead : ({ State.reset with run := .idle }).run = .idle ∧
    ({ State.reset with run := .halted .invalidOpcode }).run = .halted .invalidOpcode := by decide
theorem witness_key_wait : let s := { waiting 3 State.reset with timeline := [.cycle, .tick, .keyUp 2, .stop] }
    s.run = .running ∧ s.kw = some 3 ∧ s.timeline = [.cycle, .tick, .keyUp 2] ++ [.stop] ∧
      ∀ e ∈ [Event.cycle, .tick, .keyUp 2], e = .cycle ∨ e = .tick ∨ ∃ k, e = .keyUp k := by decide
theorem witness_start : let s := { State.reset with run := .idle, dt := 50 }
    s.run = .idle ∧ 1 ≤ [(0x60 : Byte)].length ∧ [(0x60 : Byte)].length ≤ 3584 := by decide
/-- The largest image that leaves a byte above itself leaves the last one. -/
theorem witness_start_zeros : 0x200 + (List.replicate 3583 (0 : Byte)).length ≤ 4095 ∧ 4095 < 4096 := by
  rw [List.length_replicate]
  decide
/-- The largest image, and one byte more. -/
theorem witness_start_bounds : 1 ≤ (List.replicate 3584 (0 : Byte)).length ∧
    (List.replicate 3584 (0 : Byte)).length ≤ 3584 ∧ 3584 < (List.replicate 3585 (0 : Byte)).length := by
  rw [List.length_replicate, List.length_replicate]
  decide
theorem witness_run_states : State.reset.run = .running ∧ ({ State.reset with run := .paused }).run = .paused ∧
    ({ State.reset with run := .idle }).run = .idle ∧
    ({ State.reset with run := .halted .invalidOpcode }).run ≠ .running := by decide
theorem witness_reset_of_zeros : ({ State.reset with run := .idle, pc := 5, draws := 3 }).run = .idle := by decide

/-- The invariant is met, and kept by a step, in a state that waits at a key-wait instruction. -/
theorem witness_invariant : (waiting 3 (State.reset.withFetchWord 16 0xF30A)).Inv ∧
    ∃ t, step (waiting 3 (State.reset.withFetchWord 16 0xF30A)) = .next t := by
  refine ⟨⟨by decide, by decide, by decide, fun x hx => ⟨0xF30A, by decide, ?_⟩, fun r hr => ?_⟩, _, rfl⟩
  · have h : (3 : Reg) = x := Option.some.inj hx
    subst h; decide
  · exact nomatch (show RunState.running = .halted r from hr)

/-- C2: `0x1200` at `0x200` is a finished program. -/
theorem witness_finished :
    let s := { State.reset.withFetchWord 16 0x1200 with timeline := [.cycle, .cycle, .tick] }
    s.Finished ∧ s.timeline = List.replicate 2 .cycle ++ [.tick] :=
  ⟨⟨by decide, by decide, 0x200, by decide, by decide⟩, by decide⟩

theorem witness_dead_slots :
    SameButDeadSlots { State.reset with sp := 1 } { State.reset with sp := 1, stack := State.reset.stack.set 5 7 } ∧
      ∃ t, step { State.reset with sp := 1 } = .next t := by
  refine ⟨⟨by decide, fun k hk => ?_⟩, _, rfl⟩
  have : k = 0 := Fin.ext (Nat.lt_one_iff.mp hk)
  subst this; decide
theorem witness_sound_timer : ∃ t, exec (.ldStVx 1) (withRegs [(1, 7)]) = .next t := ⟨_, rfl⟩

end Sys2Proof.Tests
end

section
/-! Shared facts for the statements about single instructions, and the two register loads `6XNN` and `8XY0`
(40_alu.md R91, R93). A statement writes its instruction's word as a sum; here that sum is tied to the formats of
30_encoding.md R72, on which the decoder inverts the encoder. -/

namespace Sys2Proof

/-! ## The words of the statements, and what they decode to -/

theorem ofNat_eq_formatXNN (op : BitVec 4) (x : Reg) (nn : Byte) :
    BitVec.ofNat 16 (0x1000 * op.toNat + 0x100 * x.val + nn.toNat) = formatXNN op x nn := by
  rw [← toNat_formatXNN, BitVec.ofNat_toNat, BitVec.setWidth_eq]

theorem ofNat_eq_formatXYN (op : BitVec 4) (x y : Reg) (n : BitVec 4) :
    BitVec.ofNat 16 (0x1000 * op.toNat + 0x100 * x.val + 0x10 * y.val + n.toNat) = formatXYN op x y n := by
  rw [← toNat_formatXYN, BitVec.ofNat_toNat, BitVec.setWidth_eq]

/-- The decoder inverts the encoder (30_encoding.md R74): in every row the fields read back the operands of the format,
and they select the arm that the row's function code names; `00E0` and `00EE` are words without an operand. -/
@[simp] theorem decodeWord_encode (i : Instr) : decodeWord (encode i) = .ok i := by
  cases i with
  | cls => rfl
  | ret => rfl
  | _ => simp [encode, decodeWord, decodeAlu, decodeKey, decodeMisc]

end Sys2Proof

namespace Sys2Proof.Machine

/-! ## An instruction that writes one register and advances -/

/-- One register written and `PC` advanced: the destination, the other registers, `PC`, and nothing else (10_state.md
R36). -/
theorem State.setReg_advance_result (s : State) (x : Reg) (b : Byte) :
    (s.setReg x b).advance.reg x = b ∧ (∀ r, r ≠ x → (s.setReg x b).advance.reg r = s.reg r) ∧
      (s.setReg x b).advance.pc = s.pc + 2 ∧
      (s.setReg x b).advance = { s with v := (s.setReg x b).advance.v, pc := (s.setReg x b).advance.pc } :=
  ⟨s.setReg_reg_same x b, fun _ hr => s.setReg_reg_ne b hr, rfl, rfl⟩

theorem exec_ldImm (x : Reg) (nn : Byte) (s : State) : exec (.ldImm x nn) s = .next (s.setReg x nn).advance := rfl

theorem exec_ldReg (x y : Reg) (s : State) : exec (.ldReg x y) s = .next (s.setReg x (s.reg y)).advance := rfl

/-! ## The register loads -/

/-- Settles O17: the word is format `XNN` with `OP = 6`, and the answer is one register write and an advance. -/
theorem loadImmediateResult : Obligations.LoadImmediateResult := by
  intro x nn s
  have hword : BitVec.ofNat 16 (0x6000 + 0x100 * x.val + nn.toNat) = encode (.ldImm x nn) :=
    ofNat_eq_formatXNN 6 x nn
  rw [hword]
  exact ⟨decodeWord_encode _, _, exec_ldImm x nn s, s.setReg_advance_result x nn⟩

/-- Settles O19: the word is format `XY` with `OP = 8` and function code 0, and the answer is one register write and an
advance; the source is read before the write, so `X = Y` is no special case. -/
theorem copyRegisterResult : Obligations.CopyRegisterResult := by
  intro x y s
  have hword : BitVec.ofNat 16 (0x8000 + 0x100 * x.val + 0x10 * y.val) = encode (.ldReg x y) :=
    ofNat_eq_formatXYN 8 x y 0
  rw [hword]
  exact ⟨decodeWord_encode _, _, exec_ldReg x y s, s.setReg_advance_result x (s.reg y)⟩

end Sys2Proof.Machine
end

section
/-! The display instruction `00E0` (41_display.md R111). -/

namespace Sys2Proof.Machine

theorem exec_cls (s : State) : exec .cls s = .next (s.setFb Frame.clear).advance := rfl

/-- Settles O25: the word is the encoding of `CLS`, and the answer is the cleared frame and an advance. -/
theorem clearDisplayResult : Obligations.ClearDisplayResult := by
  intro s
  refine ⟨decodeWord_encode .cls, _, exec_cls s, ?pixels, State.advance_pc _, ?frame⟩
  case pixels =>
    intro col _ row _
    rw [State.advance_fb, State.setFb_fb, Frame.pixel_clear]
  case frame => rfl

end Sys2Proof.Machine
end

section
/-! The index load `ANNN` (43_index_memory.md R130), with its word's format and the widening of its operand. -/

namespace Sys2Proof

theorem ofNat_eq_formatNNN (op : BitVec 4) (nnn : BitVec 12) :
    BitVec.ofNat 16 (0x1000 * op.toNat + nnn.toNat) = formatNNN op nnn := by
  rw [← toNat_formatNNN, BitVec.ofNat_toNat, BitVec.setWidth_eq]

end Sys2Proof

namespace Sys2Proof.Machine

/-- The widening of an address field keeps its number, so bits 15:12 are 0 (30_encoding.md R73). -/
@[simp] theorem toNat_zext16 (nnn : BitVec 12) : (zext16 nnn).toNat = nnn.toNat :=
  BitVec.toNat_setWidth_of_le (by decide)

theorem exec_ldI (nnn : BitVec 12) (s : State) : exec (.ldI nnn) s = .next (s.setIndex (zext16 nnn)).advance := rfl

/-- Settles O31: the word is format `NNN` with `OP = 10`, and the answer is one write of `I` and an advance. -/
theorem loadIndexResult : Obligations.LoadIndexResult := by
  intro nnn s
  have hword : BitVec.ofNat 16 (0xA000 + nnn.toNat) = encode (.ldI nnn) := ofNat_eq_formatNNN 0xA nnn
  rw [hword]
  refine ⟨decodeWord_encode _, _, exec_ldI nnn s, ?index, State.advance_pc _, ?frame⟩
  case index => rw [State.advance_index, State.setIndex_index, toNat_zext16]
  case frame => rfl

end Sys2Proof.Machine
end

section
/-! The skips on an immediate, `3XNN` and `4XNN` (44_control_flow.md R144, R145). -/

namespace Sys2Proof.Machine

theorem exec_seImm (x : Reg) (nn : Byte) (s : State) : exec (.seImm x nn) s = .next (s.skipIf (s.reg x == nn)) := rfl

theorem exec_sneImm (x : Reg) (nn : Byte) (s : State) : exec (.sneImm x nn) s = .next (s.skipIf (s.reg x != nn)) := rfl

/-- Settles O40: the words are format `XNN` with `OP = 3` and `OP = 4`, and each answer is a conditional skip, which
writes `PC` alone. The model compares bytes, the statement their unsigned numbers; the two agree. -/
theorem skipsOnImmediate : Obligations.SkipsOnImmediate := by
  intro x nn s
  have hse : BitVec.ofNat 16 (0x3000 + 0x100 * x.val + nn.toNat) = encode (.seImm x nn) := ofNat_eq_formatXNN 3 x nn
  have hsne : BitVec.ofNat 16 (0x4000 + 0x100 * x.val + nn.toNat) = encode (.sneImm x nn) := ofNat_eq_formatXNN 4 x nn
  rw [hse, hsne, exec_seImm, exec_sneImm, State.skipIf_eq, State.skipIf_eq]
  refine ⟨decodeWord_encode _, decodeWord_encode _, ?_⟩
  by_cases heq : s.reg x = nn
  · simp [heq, State.setPc]
  · have hnat : (s.reg x).toNat ≠ nn.toNat := mt BitVec.eq_of_toNat_eq heq
    simp [heq, hnat, State.setPc]

end Sys2Proof.Machine
end

section
/-! The decoder rejects a word exactly when the word selects no row of the opcode table (30_encoding.md R74, R75). One way:
a decoded instruction encodes back to its word, so the word selects the instruction's row. The other way: the fields that
a row fixes are the ones the decoder dispatches on. -/

namespace Sys2Proof

/-! ## A word is its fields in a format (30_encoding.md R72) -/

theorem formatNNN_fields {w : Word} {op : BitVec 4} (hop : (fieldOp w).toNat = op.toNat) :
    formatNNN op (fieldNNN w) = w := by
  obtain rfl : fieldOp w = op := BitVec.eq_of_toNat_eq hop
  exact (BitVec.extractLsb'_append_extractLsb'_eq_extractLsb' rfl).trans BitVec.extractLsb'_eq_self

theorem formatXNN_fields {w : Word} {op : BitVec 4} (hop : (fieldOp w).toNat = op.toNat) :
    formatXNN op (fieldX w) (fieldNN w) = w := by
  have hnnn : nibbleOfReg (fieldX w) ++ fieldNN w = fieldNNN w :=
    BitVec.extractLsb'_append_extractLsb'_eq_extractLsb' rfl
  rw [formatXNN_eq, hnnn, formatNNN_fields hop]

theorem formatXYN_fields {w : Word} {op : BitVec 4} (hop : (fieldOp w).toNat = op.toNat) :
    formatXYN op (fieldX w) (fieldY w) (fieldN w) = w := by
  have hnn : nibbleOfReg (fieldY w) ++ fieldN w = fieldNN w :=
    BitVec.extractLsb'_append_extractLsb'_eq_extractLsb' rfl
  rw [formatXYN_eq, hnn, formatXNN_fields hop]

/-- Format `X`: the function code stands in the place of `NN`. -/
theorem formatXNN_function {w : Word} {op : BitVec 4} {nn : Byte} (hop : (fieldOp w).toNat = op.toNat)
    (hnn : (fieldNN w).toNat = nn.toNat) : formatXNN op (fieldX w) nn = w := by
  rw [← BitVec.eq_of_toNat_eq hnn, formatXNN_fields hop]

/-- Format `XY`: the function code stands in the place of `N`. -/
theorem formatXYN_function {w : Word} {op n : BitVec 4} (hop : (fieldOp w).toNat = op.toNat)
    (hn : (fieldN w).toNat = n.toNat) : formatXYN op (fieldX w) (fieldY w) n = w := by
  rw [← BitVec.eq_of_toNat_eq hn, formatXYN_fields hop]

/-! ## The encoder inverts the decoder -/

theorem encode_of_decodeAlu {w : Word} {i : Instr} (hop : (fieldOp w).toNat = 0x8) (h : decodeAlu w = .ok i) :
    encode i = w := by
  unfold decodeAlu at h
  split at h
  case h_10 => cases h
  all_goals
    cases h
    exact formatXYN_function hop ‹_›

theorem encode_of_decodeKey {w : Word} {i : Instr} (hop : (fieldOp w).toNat = 0xE) (h : decodeKey w = .ok i) :
    encode i = w := by
  unfold decodeKey at h
  split at h
  case h_3 => cases h
  all_goals
    cases h
    exact formatXNN_function hop ‹_›

theorem encode_of_decodeMisc {w : Word} {i : Instr} (hop : (fieldOp w).toNat = 0xF) (h : decodeMisc w = .ok i) :
    encode i = w := by
  unfold decodeMisc at h
  split at h
  case h_10 => cases h
  all_goals
    cases h
    exact formatXNN_function hop ‹_›

/-- The encoder inverts the decoder: each arm reads the operands back out of the fields in which the instruction's format
holds them. -/
theorem encode_of_decodeWord {w : Word} {i : Instr} (h : decodeWord w = .ok i) : encode i = w := by
  unfold decodeWord at h
  split at h
  case h_1 => -- `00E0`, `00EE`
    split at h
    next hw => cases h; exact hw.symm
    next =>
      split at h
      next hw => cases h; exact hw.symm
      next => cases h
  case h_2 hop | h_3 hop | h_11 hop | h_12 hop => cases h; exact formatNNN_fields hop
  case h_4 hop | h_5 hop | h_7 hop | h_8 hop | h_13 hop => cases h; exact formatXNN_fields hop
  case h_6 hop | h_10 hop => -- `5XY0`, `9XY0`
    split at h
    next hn => cases h; exact formatXYN_function hop (congrArg BitVec.toNat hn)
    next => cases h
  case h_9 hop => exact encode_of_decodeAlu hop h
  case h_14 hop => cases h; exact formatXYN_fields hop
  case h_15 hop => exact encode_of_decodeKey hop h
  case h_16 =>
    have hop : (fieldOp w).toNat = 0xF := by
      have := (fieldOp w).isLt
      grind
    exact encode_of_decodeMisc hop h

/-! ## The rows of the opcode table -/

/-- The table lists the row of every instruction (30_encoding.md R75). -/
theorem rowOf_mem_opcodeTable (i : Instr) : rowOf i ∈ opcodeTable := by
  cases i <;> simp [opcodeTable, rowWitnesses, rowOf]

theorem exists_rowOf_of_mem_opcodeTable {r : OpcodeRow} (h : r ∈ opcodeTable) : ∃ i, rowOf i = r := by
  obtain ⟨i, -, hi⟩ := List.mem_map.mp h
  exact ⟨i, hi⟩

/-- The word of an instruction selects the instruction's row. -/
theorem rowOf_selects_encode : ∀ i : Instr, (rowOf i).selects (encode i) = true
  | .cls => Laws.Encoding.cls
  | .ret => Laws.Encoding.ret
  | .jp nnn => Laws.Encoding.jp nnn
  | .call nnn => Laws.Encoding.call nnn
  | .seImm x nn => Laws.Encoding.seImm x nn
  | .sneImm x nn => Laws.Encoding.sneImm x nn
  | .seReg x y => Laws.Encoding.seReg x y
  | .ldImm x nn => Laws.Encoding.ldImm x nn
  | .addImm x nn => Laws.Encoding.addImm x nn
  | .ldReg x y => Laws.Encoding.ldReg x y
  | .orReg x y => Laws.Encoding.orReg x y
  | .andReg x y => Laws.Encoding.andReg x y
  | .xorReg x y => Laws.Encoding.xorReg x y
  | .addReg x y => Laws.Encoding.addReg x y
  | .sub x y => Laws.Encoding.sub x y
  | .shr x y => Laws.Encoding.shr x y
  | .subn x y => Laws.Encoding.subn x y
  | .shl x y => Laws.Encoding.shl x y
  | .sneReg x y => Laws.Encoding.sneReg x y
  | .ldI nnn => Laws.Encoding.ldI nnn
  | .jpV0 nnn => Laws.Encoding.jpV0 nnn
  | .rnd x nn => Laws.Encoding.rnd x nn
  | .drw x y n => Laws.Encoding.drw x y n
  | .skp x => Laws.Encoding.skp x
  | .sknp x => Laws.Encoding.sknp x
  | .ldVxDt x => Laws.Encoding.ldVxDt x
  | .ldVxK x => Laws.Encoding.ldVxK x
  | .ldDtVx x => Laws.Encoding.ldDtVx x
  | .ldStVx x => Laws.Encoding.ldStVx x
  | .addI x => Laws.Encoding.addI x
  | .ldF x => Laws.Encoding.ldF x
  | .ldB x => Laws.Encoding.ldB x
  | .stRegs x => Laws.Encoding.stRegs x
  | .ldRegs x => Laws.Encoding.ldRegs x

theorem OpcodeRow.selects_iff (r : OpcodeRow) (w : Word) : r.selects w = true ↔ w &&& r.mask = r.fixed := by
  simp [OpcodeRow.selects]

/-- A field of which a mask keeps every bit is that field of the masked word. -/
theorem extractLsb'_eq_of_and {w mask fixed : Word} {start len : Nat} (h : w &&& mask = fixed)
    (hm : mask.extractLsb' start len = BitVec.allOnes len) : w.extractLsb' start len = fixed.extractLsb' start len := by
  rw [← h, BitVec.extractLsb'_and, hm, BitVec.and_allOnes]

/-- Every mask of the table keeps `OP`. -/
theorem fieldOp_mask (i : Instr) : fieldOp (rowOf i).mask = BitVec.allOnes 4 := by
  cases i <;> simp [rowOf, fieldOp]

/-- A word that selects a row is an instruction: by the four masks of the table, it agrees with the row in every field the
decoder reads to tell the row from the others. -/
theorem decodeWord_of_selects {w : Word} {i : Instr} (h : (rowOf i).selects w = true) : ∃ j, decodeWord w = .ok j := by
  rw [OpcodeRow.selects_iff] at h
  have hop : fieldOp w = fieldOp (rowOf i).fixed := extractLsb'_eq_of_and h (fieldOp_mask i)
  cases i with
  | cls | ret => -- mask FFFF
    have hw : w &&& 0xFFFF#16 = w := BitVec.and_allOnes
    obtain rfl := hw.symm.trans h
    exact ⟨_, rfl⟩
  | jp | call | seImm | sneImm | ldImm | addImm | ldI | jpV0 | rnd | drw => -- mask F000
    simp only [rowOf] at hop
    exact ⟨_, by rw [decodeWord, hop]; rfl⟩
  | seReg | sneReg => -- mask F00F
    simp only [rowOf] at h hop
    have hn : fieldN w = fieldN _ := extractLsb'_eq_of_and h rfl
    exact ⟨_, by rw [decodeWord, hop, hn]; rfl⟩
  | ldReg | orReg | andReg | xorReg | addReg | sub | shr | subn | shl => -- mask F00F
    simp only [rowOf] at h hop
    have hn : fieldN w = fieldN _ := extractLsb'_eq_of_and h rfl
    exact ⟨_, by rw [decodeWord, hop, decodeAlu, hn]; rfl⟩
  | skp | sknp => -- mask F0FF
    simp only [rowOf] at h hop
    have hnn : fieldNN w = fieldNN _ := extractLsb'_eq_of_and h rfl
    exact ⟨_, by rw [decodeWord, hop, decodeKey, hnn]; rfl⟩
  | ldVxDt | ldVxK | ldDtVx | ldStVx | addI | ldF | ldB | stRegs | ldRegs => -- mask F0FF
    simp only [rowOf] at h hop
    have hnn : fieldNN w = fieldNN _ := extractLsb'_eq_of_and h rfl
    exact ⟨_, by rw [decodeWord, hop, decodeMisc, hnn]; rfl⟩

/-- The decoder rejects exactly the words that select no row (30_encoding.md R74). -/
theorem decodeWord_error_iff_no_row (w : Word) :
    (∃ e, decodeWord w = .error e) ↔ ∀ r ∈ opcodeTable, r.selects w = false := by
  constructor
  · rintro ⟨e, he⟩ r hr
    obtain ⟨i, rfl⟩ := exists_rowOf_of_mem_opcodeTable hr
    refine Bool.eq_false_iff.mpr fun hsel => ?_
    obtain ⟨j, hj⟩ := decodeWord_of_selects hsel
    rw [hj] at he
    cases he
  · intro h
    cases hd : decodeWord w with
    | error e => exact ⟨e, rfl⟩
    | ok i =>
      have hsel : (rowOf i).selects w = true := encode_of_decodeWord hd ▸ rowOf_selects_encode i
      rw [h _ (rowOf_mem_opcodeTable i)] at hsel
      cases hsel

end Sys2Proof
end

section
/-! The faults of an instruction cycle (60_exceptions.md R161 to R164), said once: which fault a cycle of a running block
raises is a function of the state, and a cycle that raises none leaves the run state as it is. -/

namespace Sys2Proof.Machine

/-! ## The fault of an instruction -/

/-- The fault of an access to `count` bytes from `base` on (20_memory.md R52). -/
def spanFault (base count : Nat) : Option HaltReason :=
  if spanInMemory base count then none else some .memoryOutOfBounds

/-- The fault an instruction raises in a state, if it raises one (60_exceptions.md R161, R163, R164). -/
def execFault (s : State) : Instr → Option HaltReason
  | .ret => if s.sp.val = 0 then some .stackUnderflow else none
  | .call _ => if s.sp.val = 16 then some .stackOverflow else none
  | .drw _ _ n => spanFault s.indexAddr n.toNat
  | .ldB _ => spanFault s.indexAddr 3
  | .stRegs x | .ldRegs x => spanFault s.indexAddr (regCount x)
  | _ => none

/-- A result raises the given fault, or, when none is given, is a next state with the run state of `s`. -/
def Raises (s : State) (fault : Option HaltReason) (res : Result) : Prop :=
  match fault with
  | none => ∃ t, res = .next t ∧ t.run = s.run
  | some r => res = raise r s

theorem raises_none_next {s t : State} (h : t.run = s.run) : Raises s none (.next t) := ⟨t, rfl, h⟩

theorem raises_some_raise (s : State) (r : HaltReason) : Raises s (some r) (raise r s) := rfl

theorem withSpan_raises {s done : State} (base count : Nat) (h : done.run = s.run) :
    Raises s (spanFault base count) (withSpan base count s done) := by
  unfold withSpan spanFault
  cases spanInMemory base count with
  | true => exact raises_none_next h
  | false => exact raises_some_raise s _

theorem State.skipIf_run (s : State) (c : Bool) : (s.skipIf c).run = s.run := by rw [State.skipIf_eq, State.setPc_run]

theorem execCall_raises (nnn : BitVec 12) (s : State) : Raises s (execFault s (.call nnn)) (execCall nnn s) := by
  unfold execCall execFault
  by_cases hfull : s.sp.val = 16
  · rw [if_pos hfull, withPush_full _ _ hfull]
    exact raises_some_raise s _
  · have hlt : s.sp.val < 16 := by omega
    rw [if_neg hfull, withPush_inside _ _ hlt]
    exact raises_none_next rfl

theorem execRet_raises (s : State) : Raises s (execFault s .ret) (execRet s) := by
  unfold execRet execFault
  by_cases hempty : s.sp.val = 0
  · rw [if_pos hempty, withPop_empty _ hempty]
    exact raises_some_raise s _
  · rw [if_neg hempty, withPop_inside _ (by omega) (by omega)]
    exact raises_none_next rfl

/-- Every instruction raises its fault and no other; without one it keeps the run state. -/
theorem exec_raises (i : Instr) (s : State) : Raises s (execFault s i) (exec i s) := by
  cases i with
  | ret => exact execRet_raises s
  | call nnn => exact execCall_raises nnn s
  | drw | ldB | stRegs | ldRegs => exact withSpan_raises _ _ rfl
  | seImm | sneImm | seReg | sneReg | skp | sknp => exact raises_none_next (s.skipIf_run _)
  | _ => exact raises_none_next rfl

theorem spanFault_eq_some_iff (base count : Nat) (r : HaltReason) :
    spanFault base count = some r ↔ r = .memoryOutOfBounds ∧ 0 < count ∧ 4096 ≤ base + count - 1 := by
  simp only [spanFault, spanInMemory_iff]
  split
  next hin => exact ⟨nofun, fun ⟨_, hcount, hbound⟩ => by omega⟩
  next hout =>
    have hspan : 0 < count ∧ 4096 ≤ base + count - 1 := by omega
    simp [hspan, eq_comm]

theorem execFault_ne_invalidOpcode (s : State) (i : Instr) : execFault s i ≠ some .invalidOpcode := by
  cases i <;> simp [execFault, spanFault_eq_some_iff]

theorem execFault_eq_stackOverflow_iff (s : State) (i : Instr) :
    execFault s i = some .stackOverflow ↔ ∃ nnn, i = .call nnn ∧ s.sp.val = 16 := by
  cases i <;> simp [execFault, spanFault_eq_some_iff]

theorem execFault_eq_stackUnderflow_iff (s : State) (i : Instr) :
    execFault s i = some .stackUnderflow ↔ i = .ret ∧ s.sp.val = 0 := by
  cases i <;> simp [execFault, spanFault_eq_some_iff]

theorem execFault_eq_memoryOutOfBounds_iff (s : State) (i : Instr) :
    execFault s i = some .memoryOutOfBounds ↔
      (∃ x y n, i = .drw x y n ∧ 0 < n.toNat ∧ 4096 ≤ s.index.toNat + n.toNat - 1) ∨
      (∃ x, i = .ldB x ∧ 4096 ≤ s.index.toNat + 2) ∨
      (∃ x, (i = .stRegs x ∨ i = .ldRegs x) ∧ 4096 ≤ s.index.toNat + x.val) := by
  cases i with
  | stRegs x | ldRegs x =>
    have hlast : s.index.toNat + regCount x - 1 = s.index.toNat + x.val := rfl
    have hcount : 0 < regCount x := Nat.succ_pos _
    simp [execFault, spanFault_eq_some_iff, State.indexAddr, hlast, hcount]
  | _ => simp [execFault, spanFault_eq_some_iff, State.indexAddr]

/-! ## The fault of a cycle -/

/-- The fault a cycle of a running block with no key awaited raises, if it raises one (60_exceptions.md R176). -/
def cycleFault (s : State) : Option HaltReason :=
  match s.fetchWord with
  | none => some .memoryOutOfBounds
  | some w =>
    match decodeWord w with
    | .error _ => some .invalidOpcode
    | .ok i => execFault s i

theorem cycle_raises {s : State} (hrun : s.run = .running) (hkw : s.kw = none) :
    Raises s (cycleFault s) (cycle s) := by
  unfold cycle cycleFault State.fetchWord
  rw [if_pos hrun, hkw]
  cases hf : s.fetchBytes with
  | none => exact raises_some_raise s _
  | some b =>
    obtain ⟨hi, lo⟩ := b
    simp only [decode_pair, Option.map_some]
    cases hd : decodeWord (wordOfBytes hi lo) with
    | error e => exact raises_some_raise s _
    | ok i => exact exec_raises i s

/-- The three checks of a cycle, in their order: the fetch, the decoder, the instruction's own (60_exceptions.md R176). -/
theorem cycleFault_eq_some_iff (s : State) (r : HaltReason) :
    cycleFault s = some r ↔
      (s.fetchWord = none ∧ r = .memoryOutOfBounds) ∨
      (∃ w, s.fetchWord = some w ∧ (∃ e, decodeWord w = .error e) ∧ r = .invalidOpcode) ∨
      (∃ w i, s.fetchWord = some w ∧ decodeWord w = .ok i ∧ execFault s i = some r) := by
  unfold cycleFault
  cases s.fetchWord with
  | none => simp [eq_comm]
  | some w => cases hd : decodeWord w <;> simp [hd, eq_comm]

/-- A cycle of a running block with no key awaited answers a next state, which is halted exactly when the cycle has a fault,
with that fault's reason; and then nothing but the run state has changed (60_exceptions.md R165). -/
theorem cycle_halts_iff {s : State} (hrun : s.run = .running) (hkw : s.kw = none) :
    ∃ t, cycle s = .next t ∧ (∀ r, t.run = .halted r ↔ cycleFault s = some r) ∧
      (∀ r, t.run = .halted r → t = s.setRun (.halted r)) := by
  have hraises := cycle_raises hrun hkw
  cases hfault : cycleFault s with
  | none =>
    rw [hfault] at hraises
    obtain ⟨t, hcycle, ht⟩ := hraises
    exact ⟨t, hcycle, by simp [ht, hrun], by simp [ht, hrun]⟩
  | some q =>
    rw [hfault] at hraises
    exact ⟨s.setRun (.halted q), hraises, by simp, by simp⟩

/-- A fetch finds no word exactly when `PC + 1` is outside memory (60_exceptions.md R161 (a)). -/
theorem State.fetchWord_eq_none_iff (s : State) : s.fetchWord = none ↔ 4096 ≤ s.pc.toNat + 1 := by
  rw [State.fetchWord, Option.map_eq_none_iff, State.fetchBytes_eq_none_iff]

/-! ## The statements -/

/-- Settles O12: of a cycle's three checks only the decoder's has this reason, and the decoder rejects exactly the words
that select no row. -/
theorem invalidOpcodeIsRaisedExactly : Obligations.InvalidOpcodeIsRaisedExactly := by
  intro s hrun hkw
  obtain ⟨t, hcycle, hhalts, -⟩ := cycle_halts_iff hrun hkw
  refine ⟨t, hcycle, ?_⟩
  rw [hhalts, cycleFault_eq_some_iff]
  simp [execFault_ne_invalidOpcode, decodeWord_error_iff_no_row]

/-- Settles O13: the reason of a failed fetch (a) and of the memory instructions' own check (b) to (d), and of nothing
else. -/
theorem memoryOutOfBoundsIsRaisedExactly : Obligations.MemoryOutOfBoundsIsRaisedExactly := by
  intro s hrun hkw
  obtain ⟨t, hcycle, hhalts, -⟩ := cycle_halts_iff hrun hkw
  refine ⟨t, hcycle, ?_⟩
  rw [hhalts, cycleFault_eq_some_iff]
  simp [State.fetchWord_eq_none_iff, execFault_eq_memoryOutOfBounds_iff]

/-- Settles O14: the reasons of the checks of `2NNN` and of `00EE`; a fault leaves the stack and its depth as they
were. -/
theorem stackFaultsAreRaisedExactly : Obligations.StackFaultsAreRaisedExactly := by
  intro s hrun hkw
  obtain ⟨t, hcycle, hhalts, hkeeps⟩ := cycle_halts_iff hrun hkw
  refine ⟨t, hcycle, ?overflow, ?kept, ?underflow⟩
  case overflow =>
    rw [hhalts, cycleFault_eq_some_iff]
    simp [execFault_eq_stackOverflow_iff]
  case kept =>
    intro h
    rw [hkeeps _ h]
    exact ⟨rfl, rfl⟩
  case underflow =>
    rw [hhalts, cycleFault_eq_some_iff]
    simp [execFault_eq_stackUnderflow_iff]

end Sys2Proof.Machine
end

section
/-! The encoding and the opcode table (30_encoding.md): decoder and encoder are inverse to each other, and the decoder
reads a word as an instruction of the one row that the word selects. -/

namespace Sys2Proof

/-! ## The decoder inverts the encoder, and back -/

/-- The decoder reads the two bytes of an instruction as it reads their word, and gives back what follows them
(30_encoding.md R79). -/
theorem decode_encodeBytes_append (i : Instr) (rest : List Byte) : decode (encodeBytes i ++ rest) = .ok (i, rest) := by
  simp [encodeBytes, decode]

/-- Settles O1: the decoder inverts the encoder on words, and a word is put together again from its two bytes. -/
theorem encodeThenDecodeIsIdentity : Obligations.EncodeThenDecodeIsIdentity := fun i rest =>
  ⟨decodeWord_encode i, decode_encodeBytes_append i rest⟩

/-- Settles O2: the fields the decoder reads fill the instruction's format. -/
theorem decodeThenEncodeIsIdentity : Obligations.DecodeThenEncodeIsIdentity := fun _ _ => encode_of_decodeWord

/-! ## Rows that no word selects together -/

/-- Some bit that both masks keep has to be 0 for one row and 1 for the other. -/
def OpcodeRow.Clashes (r q : OpcodeRow) : Prop := r.fixed &&& q.mask ≠ q.fixed &&& r.mask

theorem OpcodeRow.Clashes.not_both_select {r q : OpcodeRow} (h : r.Clashes q) (w : Word) :
    ¬(r.selects w = true ∧ q.selects w = true) := by
  rintro ⟨hr, hq⟩
  rw [selects_iff] at hr hq
  apply h
  rw [← hr, ← hq, BitVec.and_assoc, BitVec.and_assoc, BitVec.and_comm r.mask]

/-- The rows of the table clash pairwise (30_encoding.md R74, R75). -/
theorem opcodeTable_pairwise_clashes : opcodeTable.Pairwise OpcodeRow.Clashes := by
  unfold OpcodeRow.Clashes
  decide

theorem eq_of_both_select {r q : OpcodeRow} (hr : r ∈ opcodeTable) (hq : q ∈ opcodeTable) {w : Word}
    (hrw : r.selects w = true) (hqw : q.selects w = true) : r = q := by
  by_contra hne
  have : Std.Symm OpcodeRow.Clashes := ⟨fun _ _ h => Ne.symm h⟩
  exact (opcodeTable_pairwise_clashes.forall hr hq hne).not_both_select w ⟨hrw, hqw⟩

/-- Settles O3: rows that clash have no word in common. -/
theorem opcodeRowsAreDisjoint : Obligations.OpcodeRowsAreDisjoint :=
  ⟨rfl, opcodeTable_pairwise_clashes.imp fun h => h.not_both_select⟩

theorem rowOf_selects_of_decodeWord {w : Word} {i : Instr} (h : decodeWord w = .ok i) : (rowOf i).selects w = true :=
  encode_of_decodeWord h ▸ rowOf_selects_encode i

/-- Settles O4: a word that selects a row decodes to some instruction, whose row it selects too; and that is the same
row. -/
theorem decoderSelectsItsTableRow : Obligations.DecoderSelectsItsTableRow := by
  refine fun w => ⟨fun r hr hrw => ?_, fun i hi => ⟨rowOf_mem_opcodeTable i, rowOf_selects_of_decodeWord hi⟩⟩
  obtain ⟨i, rfl⟩ := exists_rowOf_of_mem_opcodeTable hr
  obtain ⟨j, hj⟩ := decodeWord_of_selects hrw
  exact ⟨j, hj, eq_of_both_select (rowOf_mem_opcodeTable j) hr (rowOf_selects_of_decodeWord hj) hrw⟩

/-! ## The words that are no instruction (30_encoding.md R76) -/

theorem toNat_fieldOp (w : Word) : (fieldOp w).toNat = w.toNat / 4096 := by
  have := w.isLt
  simp only [fieldOp, BitVec.extractLsb'_toNat, Nat.shiftRight_eq_div_pow]
  omega

theorem toNat_fieldN (w : Word) : (fieldN w).toNat = w.toNat % 16 := by
  simp [fieldN, BitVec.extractLsb'_toNat]

theorem toNat_fieldNN (w : Word) : (fieldNN w).toNat = w.toNat % 256 := by
  simp [fieldNN, BitVec.extractLsb'_toNat]

theorem fieldN_eq_zero_iff (w : Word) : fieldN w = 0#4 ↔ w.toNat % 16 = 0 := by
  rw [← toNat_fieldN, ← BitVec.toNat_inj]; rfl

theorem decodeAlu_error_iff (w : Word) :
    (∃ e, decodeAlu w = .error e) ↔ w.toNat % 16 ∈ [0x8, 0x9, 0xA, 0xB, 0xC, 0xD, 0xF] := by
  unfold decodeAlu
  rw [toNat_fieldN]
  have := Nat.mod_lt w.toNat (show 0 < 16 by decide)
  split
  case h_10 => simp; grind
  all_goals simp [*]

theorem decodeKey_error_iff (w : Word) : (∃ e, decodeKey w = .error e) ↔ w.toNat % 256 ∉ [0x9E, 0xA1] := by
  unfold decodeKey
  rw [toNat_fieldNN]
  split
  case h_3 => simp_all
  all_goals simp [*]

theorem decodeMisc_error_iff (w : Word) :
    (∃ e, decodeMisc w = .error e) ↔
      w.toNat % 256 ∉ [0x07, 0x0A, 0x15, 0x18, 0x1E, 0x29, 0x33, 0x55, 0x65] := by
  unfold decodeMisc
  rw [toNat_fieldNN]
  split
  case h_10 => simp_all
  all_goals simp [*]

/-- Settles O5: the high nibble picks the group, and in each group the decoder's own test is the one listed. -/
theorem rejectedWordsAreTheSixGroups : Obligations.RejectedWordsAreTheSixGroups := by
  intro w
  have hlt : w.toNat / 4096 < 16 := by have := w.isLt; omega
  unfold decodeWord
  rw [toNat_fieldOp]
  split
  case h_1 hop => -- `0NNN`
    rw [hop]
    split
    next hw => simp [hw]
    next hcls =>
      split
      next hw => simp [hw]
      next hret => simp [hcls, hret]
  case h_6 hop | h_10 hop => -- `5XYn`, `9XYn`
    split
    next hn => simp [hop, (fieldN_eq_zero_iff w).mp hn]
    next hn => simp [hop, mt (fieldN_eq_zero_iff w).mpr hn]
  case h_9 hop => simp [hop, decodeAlu_error_iff]
  case h_15 hop => simp [hop, decodeKey_error_iff]
  case h_16 =>
    have hop : w.toNat / 4096 = 0xF := by grind
    simp [hop, decodeMisc_error_iff]
  all_goals simp [*]

/-- Settles O6: closed words, which the decoder computes. -/
theorem workedWordsDecode : Obligations.WorkedWordsDecode := by
  unfold Obligations.WorkedWordsDecode
  decide

end Sys2Proof
end

section
/-! What an instruction does, said once: it raises its fault (`execFault`), or it leaves the state `completed`. The
access matrix (10_state.md R36) is read off `completed`. -/

namespace Sys2Proof.Machine

/-! ## The state an instruction leaves -/

/-- The state an instruction leaves when its own check passes: every meaning of `exec` without the check, a
conditional skip as the one write of `PC` it is. -/
def completed (s : State) : Instr → State
  | .cls => (s.setFb Frame.clear).advance
  | .ret => { s with sp := ⟨s.sp.val - 1, by omega⟩, pc := s.stack[s.sp.val - 1] }
  | .jp nnn => s.setPc (zext16 nnn)
  | .call nnn => { s with stack := s.stack.setIfInBounds s.sp.val (s.pc + 2), sp := s.sp + 1, pc := zext16 nnn }
  | .seImm x nn => s.setPc (s.pc + if s.reg x == nn then 4 else 2)
  | .sneImm x nn => s.setPc (s.pc + if s.reg x != nn then 4 else 2)
  | .seReg x y => s.setPc (s.pc + if s.reg x == s.reg y then 4 else 2)
  | .ldImm x nn => (s.setReg x nn).advance
  | .addImm x nn => (s.setReg x (s.reg x + nn)).advance
  | .ldReg x y => (s.setReg x (s.reg y)).advance
  | .orReg x y => (s.setReg x (s.reg x ||| s.reg y)).advance
  | .andReg x y => (s.setReg x (s.reg x &&& s.reg y)).advance
  | .xorReg x y => (s.setReg x (s.reg x ^^^ s.reg y)).advance
  | .addReg x y => (s.setRegFlag x (s.reg x + s.reg y) (flagByte (carry (s.reg x) (s.reg y)))).advance
  | .sub x y => (s.setRegFlag x (s.reg x - s.reg y) (flagByte (notBorrow (s.reg x) (s.reg y)))).advance
  | .shr x y => shrWith Config.shiftSource x y s
  | .subn x y => (s.setRegFlag x (s.reg y - s.reg x) (flagByte (notBorrow (s.reg y) (s.reg x)))).advance
  | .shl x y => shlWith Config.shiftSource x y s
  | .sneReg x y => s.setPc (s.pc + if s.reg x != s.reg y then 4 else 2)
  | .ldI nnn => (s.setIndex (zext16 nnn)).advance
  | .jpV0 nnn => s.setPc (s.computedTarget nnn)
  | .rnd x nn => rndWith (Config.rnd s.draws) x nn s.drawn
  | .drw x y n => ((s.setFb (s.spriteBlit x y n).1).setReg vf (flagByte (s.spriteBlit x y n).2)).advance
  | .skp x => s.setPc (s.pc + if s.keyPressed (s.reg x) then 4 else 2)
  | .sknp x => s.setPc (s.pc + if !s.keyPressed (s.reg x) then 4 else 2)
  | .ldVxDt x => (s.setReg x s.dt).advance
  | .ldVxK x => s.setKw (some x)
  | .ldDtVx x => (s.setDt (s.reg x)).advance
  | .ldStVx x => (s.setSt (s.reg x)).advance
  | .addI x => (s.setIndex (s.index + zextByte (s.reg x))).advance
  | .ldF x => (s.setIndex (glyphAddress (s.reg x))).advance
  | .ldB x => (s.setMem (Memory.store s.mem s.indexAddr (bcdDigits (s.reg x)))).advance
  | .stRegs x => stRegsWith Config.loadStoreIncrementsI x s
  | .ldRegs x => ldRegsWith Config.loadStoreIncrementsI x s

theorem execRet_of_pos {s : State} (h : 0 < s.sp.val) : execRet s = .next (completed s .ret) :=
  withPop_inside _ h (by omega)

theorem execCall_of_lt {s : State} (nnn : BitVec 12) (h : s.sp.val < 16) :
    execCall nnn s = .next (completed s (.call nnn)) := by
  have hsp : s.sp + 1 = ⟨s.sp.val + 1, Nat.succ_lt_succ h⟩ :=
    Fin.ext (Fin.val_add_one_of_lt' (Nat.succ_lt_succ h))
  have hstack : s.stack.setIfInBounds s.sp.val (s.pc + 2) = s.stack.set s.sp.val (s.pc + 2) h := by
    ext k hk
    rw [Vector.getElem_setIfInBounds, Vector.getElem_set]
  rw [execCall, withPush_inside _ _ h, completed, hsp, hstack]
  rfl

theorem withSpan_of_fault_none {base count : Nat} (s done : State) (h : spanFault base count = none) :
    withSpan base count s done = .next done := by
  unfold spanFault at h
  unfold withSpan
  split at h
  next hin => rw [if_pos hin]
  next => cases h

theorem exec_of_fault_none {s : State} {i : Instr} (h : execFault s i = none) : exec i s = .next (completed s i) := by
  cases i with
  | ret =>
    refine execRet_of_pos (Nat.pos_of_ne_zero fun hempty => ?_)
    simp [execFault, hempty] at h
  | call nnn =>
    have hfull : s.sp.val ≠ 16 := fun hfull => by simp [execFault, hfull] at h
    exact execCall_of_lt nnn (by omega)
  | drw | ldB | stRegs | ldRegs => exact withSpan_of_fault_none _ _ h
  | seImm | sneImm | seReg | sneReg | skp | sknp => exact congrArg Host.Outcome.next (s.skipIf_eq _)
  | _ => rfl

theorem exec_of_fault {s : State} {i : Instr} {r : HaltReason} (h : execFault s i = some r) :
    exec i s = .next (s.setRun (.halted r)) := by
  have hraises := exec_raises i s
  rw [h] at hraises
  exact hraises

/-- Everything an instruction can do. -/
theorem exec_cases {i : Instr} {s t : State} (h : exec i s = .next t) :
    (∃ r, execFault s i = some r ∧ t = s.setRun (.halted r)) ∨ (execFault s i = none ∧ t = completed s i) := by
  cases hfault : execFault s i with
  | some r =>
    rw [exec_of_fault hfault] at h
    cases h
    exact .inl ⟨r, rfl, rfl⟩
  | none =>
    rw [exec_of_fault_none hfault] at h
    cases h
    exact .inr ⟨rfl, rfl⟩

theorem exec_answers (i : Instr) (s : State) : ∃ t, exec i s = .next t := by
  cases hfault : execFault s i with
  | some r => exact ⟨_, exec_of_fault hfault⟩
  | none => exact ⟨_, exec_of_fault_none hfault⟩

/-! ## The access matrix, component by component -/

/-- The registers that `FX55` and `FX65` move (43_index_memory.md R134). -/
theorem lt_regCount_iff (x r : Reg) : r.val < regCount x ↔ r ≤ x := Nat.lt_succ_iff

section
variable (s : State) (i : Instr)

theorem completed_pc (h : writesPc i = false) : (completed s i).pc = s.pc + 2 := by
  cases i with
  | ret | jp | call | seImm | sneImm | seReg | sneReg | jpV0 | skp | sknp | ldVxK => cases h
  | _ => rfl

theorem completed_index (h : ¬writesIndex i) : (completed s i).index = s.index := by
  cases i with
  | ldI | addI | ldF => exact absurd trivial h
  | stRegs | ldRegs =>
    rw [writesIndex] at h
    simp [completed, stRegsWith, ldRegsWith, State.bumpIndex, State.loadRegs, h]
  | _ => rfl

theorem completed_sp (hret : i ≠ .ret) (hcall : ∀ nnn, i ≠ .call nnn) : (completed s i).sp = s.sp := by
  cases i with
  | ret => exact absurd rfl hret
  | call nnn => exact absurd rfl (hcall nnn)
  | _ => rfl

theorem completed_stack (hcall : ∀ nnn, i ≠ .call nnn) : (completed s i).stack = s.stack := by
  cases i with
  | call nnn => exact absurd rfl (hcall nnn)
  | _ => rfl

theorem completed_dt (h : ∀ x, i ≠ .ldDtVx x) : (completed s i).dt = s.dt := by
  cases i with
  | ldDtVx x => exact absurd rfl (h x)
  | _ => rfl

theorem completed_st (h : ∀ x, i ≠ .ldStVx x) : (completed s i).st = s.st := by
  cases i with
  | ldStVx x => exact absurd rfl (h x)
  | _ => rfl

theorem completed_kw (h : ∀ x, i ≠ .ldVxK x) : (completed s i).kw = s.kw := by
  cases i with
  | ldVxK x => exact absurd rfl (h x)
  | _ => rfl

theorem completed_fb (hcls : i ≠ .cls) (hdrw : ∀ x y n, i ≠ .drw x y n) : (completed s i).fb = s.fb := by
  cases i with
  | cls => exact absurd rfl hcls
  | drw x y n => exact absurd rfl (hdrw x y n)
  | _ => rfl

theorem completed_draws (h : ∀ x nn, i ≠ .rnd x nn) : (completed s i).draws = s.draws := by
  cases i with
  | rnd x nn => exact absurd rfl (h x nn)
  | _ => rfl

theorem completed_keys : (completed s i).keys = s.keys := by cases i <;> rfl

theorem completed_run : (completed s i).run = s.run := by cases i <;> rfl

theorem completed_timeline : (completed s i).timeline = s.timeline := by cases i <;> rfl

/-- The registers, row by row of the matrix: a destination, a destination and the flag, the flag, the first `X + 1`, or
none. -/
theorem completed_reg {r : Reg} (h : writesReg i r = false) : (completed s i).reg r = s.reg r := by
  cases i with
  | ldImm | addImm | ldReg | orReg | andReg | xorReg | rnd | ldVxDt =>
    exact State.setReg_reg_ne _ _ (beq_eq_false_iff_ne.mp h)
  | addReg | sub | shr | subn | shl =>
    obtain ⟨hx, hvf⟩ := Bool.or_eq_false_iff.mp h
    exact State.setRegFlag_reg_ne _ _ _ (beq_eq_false_iff_ne.mp hx) (beq_eq_false_iff_ne.mp hvf)
  | drw => exact State.setReg_reg_ne _ _ (beq_eq_false_iff_ne.mp h)
  | ldRegs x =>
    have hout : ¬r.val < regCount x := mt (lt_regCount_iff x r).mp (of_decide_eq_false h)
    exact (getElem_loadBytesInto s.mem s.indexAddr s.v (regCount x) r).trans (if_neg hout)
  | _ => rfl

theorem completed_read {a : Nat} (h : ∀ base count, storesTo i s = some (base, count) → a < base ∨ base + count ≤ a) :
    Memory.read (completed s i).mem a = Memory.read s.mem a := by
  cases i with
  | ldB x => exact Memory.read_store_outside (by simpa using h _ _ rfl)
  | stRegs x => exact Memory.read_store_outside (by simpa using h _ _ rfl)
  | _ => rfl

end

/-! ## The statements -/

/-- Settles O43: a fault writes no register, and an instruction that completes only those of its row. -/
theorem onlyDestinationRegistersChange : Obligations.OnlyDestinationRegistersChange := by
  intro i s t h r hr
  obtain ⟨_, -, rfl⟩ | ⟨-, rfl⟩ := exec_cases h
  · rfl
  · exact completed_reg s i hr

/-- Settles O44: a fault stores nothing, and `FX33` and `FX55` store only inside their span. -/
theorem onlyStoredBytesChange : Obligations.OnlyStoredBytesChange := by
  intro i s t h a ha
  obtain ⟨_, -, rfl⟩ | ⟨-, rfl⟩ := exec_cases h
  · rfl
  · exact completed_read s i ha

/-- Settles O45: a fault changes `RUN` alone, and an instruction that completes changes the components of its row. -/
theorem everyOtherComponentHasItsWriters : Obligations.EveryOtherComponentHasItsWriters := by
  intro i s t h
  obtain ⟨r, -, rfl⟩ | ⟨-, rfl⟩ := exec_cases h
  · have hfault : ∃ q, s.setRun (.halted r) = { s with run := .halted q } := ⟨r, rfl⟩
    exact ⟨fun _ => .inr hfault, fun _ => rfl, fun _ => rfl, fun _ _ => rfl, fun _ => rfl, fun _ => rfl, fun _ => rfl,
      rfl, fun _ => rfl, fun _ _ => rfl, .inr hfault, fun _ => rfl, rfl⟩
  · have hwait : (∃ x, i = .ldVxK x) → (completed s i).pc = s.pc := by rintro ⟨x, rfl⟩; rfl
    exact ⟨fun h => .inl (completed_pc s i h), hwait, completed_index s i, completed_sp s i, completed_stack s i,
      completed_dt s i, completed_st s i, completed_keys s i, completed_kw s i, completed_fb s i,
      .inl (completed_run s i), completed_draws s i, completed_timeline s i⟩

/-! ## The sound timer is never read (10_state.md R28) -/

theorem execFault_setSt (s : State) (b : Byte) (i : Instr) : execFault (s.setSt b) i = execFault s i := by
  cases i <;> rfl

theorem completed_setSt (s : State) (b : Byte) {i : Instr} (h : ∀ x, i ≠ .ldStVx x) :
    completed (s.setSt b) i = (completed s i).setSt b := by
  cases i with
  | ldStVx x => exact absurd rfl (h x)
  | _ => rfl

/-- Settles O57: an instruction's fault does not depend on `ST`, and what it leaves but `ST` itself does not either;
`FX18`, which overwrites `ST`, raises no fault. -/
theorem soundTimerIsNeverRead : Obligations.SoundTimerIsNeverRead := by
  intro i s t b h
  have hset : { s with st := b } = s.setSt b := rfl
  rw [hset]
  by_cases hst : ∃ x, i = .ldStVx x
  · rw [if_pos hst]
    obtain ⟨x, rfl⟩ := hst
    cases h
    rfl
  · rw [if_neg hst]
    obtain ⟨r, hfault, rfl⟩ | ⟨hfault, rfl⟩ := exec_cases h
    · exact exec_of_fault ((execFault_setSt s b i).trans hfault)
    · rw [exec_of_fault_none ((execFault_setSt s b i).trans hfault), completed_setSt s b (not_exists.mp hst)]
      rfl

end Sys2Proof.Machine
end

section
/-! The instruction cycle, the events and the timeline (60_exceptions.md): what each does, one equation per run state,
and the statements about single steps. -/

namespace Sys2Proof.Machine

/-! ## The cycle, one equation per check (60_exceptions.md R176) -/

theorem cycle_gated {s : State} (h : s.run ≠ .running ∨ s.kw ≠ none) : cycle s = .next s := by
  unfold cycle
  split
  next hrun =>
    split
    next => rfl
    next hkw => exact absurd hkw (h.resolve_left (not_not_intro hrun))
  next => rfl

theorem cycle_of_fetch_none {s : State} (hrun : s.run = .running) (hkw : s.kw = none) (hf : s.fetchWord = none) :
    cycle s = .next (s.setRun (.halted .memoryOutOfBounds)) := by
  rw [State.fetchWord, Option.map_eq_none_iff] at hf
  simp [cycle, hrun, hkw, hf, raise]

theorem cycle_of_decode_error {s : State} {w : Word} {e : DecodeReject} (hrun : s.run = .running) (hkw : s.kw = none)
    (hf : s.fetchWord = some w) (hd : decodeWord w = .error e) :
    cycle s = .next (s.setRun (.halted .invalidOpcode)) := by
  obtain ⟨b, hb, rfl⟩ := Option.map_eq_some_iff.mp hf
  simp [cycle, hrun, hkw, hb, decode_pair, hd, Except.map, raise]

theorem cycle_of_decode_ok {s : State} {w : Word} {i : Instr} (hrun : s.run = .running) (hkw : s.kw = none)
    (hf : s.fetchWord = some w) (hd : decodeWord w = .ok i) : cycle s = exec i s := by
  obtain ⟨b, hb, rfl⟩ := Option.map_eq_some_iff.mp hf
  simp [cycle, hrun, hkw, hb, decode_pair, hd, Except.map]

theorem cycle_answers (s : State) : ∃ t, cycle s = .next t := by
  by_cases hgate : s.run ≠ .running ∨ s.kw ≠ none
  · exact ⟨s, cycle_gated hgate⟩
  · obtain ⟨hrun, hkw⟩ := not_or.mp hgate
    obtain ⟨t, ht, -⟩ := cycle_halts_iff (not_not.mp hrun) (not_not.mp hkw)
    exact ⟨t, ht⟩

/-- A cycle does nothing, or halts the run with no key awaited, or completes the decoded instruction. -/
theorem cycle_outcomes {s t : State} (h : cycle s = .next t) :
    t = s ∨ (∃ r, s.kw = none ∧ t = s.setRun (.halted r)) ∨
      (∃ w i, s.run = .running ∧ s.kw = none ∧ s.fetchWord = some w ∧ decodeWord w = .ok i ∧ execFault s i = none ∧
        t = completed s i) := by
  obtain ⟨-, rfl⟩ | ⟨-, -, rfl⟩ | ⟨-, hkw, -, rfl⟩ | ⟨_, _, -, hkw, -, -, rfl⟩ | ⟨w, i, hrun, hkw, hf, hd, hexec⟩ :=
    cycle_cases h
  · exact .inl rfl
  · exact .inl rfl
  · exact .inr (.inl ⟨_, hkw, rfl⟩)
  · exact .inr (.inl ⟨_, hkw, rfl⟩)
  · obtain ⟨r, -, rfl⟩ | ⟨hfault, rfl⟩ := exec_cases hexec
    · exact .inr (.inl ⟨r, hkw, rfl⟩)
    · exact .inr (.inr ⟨w, i, hrun, hkw, hf, hd, hfault, rfl⟩)

/-! ## The timer and the keys -/

theorem tick_running {s : State} (h : s.run = .running) : tick s = (s.setDt (decrement s.dt)).setSt (decrement s.st) :=
  if_pos h

theorem tick_not_running {s : State} (h : s.run ≠ .running) : tick s = s := if_neg h

theorem keyDown_running (k : Key) {s : State} (h : s.run = .running) :
    keyDown k s = resolveWait k (s.setKey k true) := by
  rw [keyDown, h]

theorem keyDown_paused (k : Key) {s : State} (h : s.run = .paused) : keyDown k s = s.setKey k true := by
  rw [keyDown, h]

theorem keyDown_dead (k : Key) {s : State} (h : s.run = .idle ∨ ∃ r, s.run = .halted r) : keyDown k s = s := by
  obtain h | ⟨r, h⟩ := h <;> rw [keyDown, h]

theorem keyUp_live (k : Key) {s : State} (h : s.run = .running ∨ s.run = .paused) : keyUp k s = s.setKey k false := by
  obtain h | h := h <;> rw [keyUp, h]

theorem keyUp_dead (k : Key) {s : State} (h : s.run = .idle ∨ ∃ r, s.run = .halted r) : keyUp k s = s := by
  obtain h | ⟨r, h⟩ := h <;> rw [keyUp, h]

theorem resolveWait_none (k : Key) {s : State} (h : s.kw = none) : resolveWait k s = s := by
  rw [resolveWait, h]

theorem resolveWait_some (k : Key) {s : State} {x : Reg} (h : s.kw = some x) :
    resolveWait k s = ((s.setReg x (BitVec.ofNat 8 k.val)).setKw none).advance := by
  rw [resolveWait, h]

/-! ## The host's commands -/

theorem start_idle {rom : List Byte} {s : State} (hrun : s.run = .idle) (hrom : romWellFormed rom = true) :
    start rom s = resetWith rom s := if_pos ⟨hrun, hrom⟩

theorem start_ignored {rom : List Byte} {s : State} (h : s.run ≠ .idle ∨ romWellFormed rom = false) :
    start rom s = s :=
  if_neg fun ⟨hrun, hrom⟩ => h.elim (fun hne => hne hrun) fun hf => by rw [hrom] at hf; cases hf

theorem romWellFormed_iff (rom : List Byte) : romWellFormed rom = true ↔ 1 ≤ rom.length ∧ rom.length ≤ 3584 := by
  cases rom <;> simp [romWellFormed, romNonempty, romFits]

theorem togglePause_running {s : State} (h : s.run = .running) : togglePause s = s.setRun .paused := by
  rw [togglePause, h]

theorem togglePause_paused {s : State} (h : s.run = .paused) : togglePause s = s.setRun .running := by
  rw [togglePause, h]

theorem togglePause_dead {s : State} (h : s.run = .idle ∨ ∃ r, s.run = .halted r) : togglePause s = s := by
  obtain h | ⟨r, h⟩ := h <;> rw [togglePause, h]

/-- The run states in which keys work, and those in which only `start` or `stop` has an effect. -/
theorem live_or_dead (s : State) :
    (s.run = .running ∨ s.run = .paused) ∨ (s.run = .idle ∨ ∃ r, s.run = .halted r) := by
  cases s.run <;> simp

/-- A key-down answers the state it finds, or that state with the key down, or the wait it finds resolved. -/
theorem keyDown_cases (k : Key) (s : State) :
    ((s.run = .idle ∨ ∃ r, s.run = .halted r) ∧ keyDown k s = s) ∨
    ((s.run = .paused ∨ s.run = .running ∧ s.kw = none) ∧ keyDown k s = s.setKey k true) ∨
    (∃ x, s.run = .running ∧ s.kw = some x ∧
      keyDown k s = (((s.setKey k true).setReg x (BitVec.ofNat 8 k.val)).setKw none).advance) := by
  obtain (hrun | hrun) | hdead := live_or_dead s
  · rw [keyDown_running k hrun]
    cases hkw : s.kw with
    | none => exact .inr (.inl ⟨.inr ⟨hrun, rfl⟩, resolveWait_none k hkw⟩)
    | some x => exact .inr (.inr ⟨x, hrun, rfl, resolveWait_some k hkw⟩)
  · exact .inr (.inl ⟨.inl hrun, keyDown_paused k hrun⟩)
  · exact .inl ⟨hdead, keyDown_dead k hdead⟩

theorem keyUp_cases (k : Key) (s : State) : keyUp k s = s ∨ keyUp k s = s.setKey k false := by
  obtain hlive | hdead := live_or_dead s
  · exact .inr (keyUp_live k hlive)
  · exact .inl (keyUp_dead k hdead)

theorem tick_cases (s : State) : tick s = s ∨ tick s = (s.setDt (decrement s.dt)).setSt (decrement s.st) := by
  by_cases h : s.run = .running
  · exact .inr (tick_running h)
  · exact .inl (tick_not_running h)

theorem start_cases (rom : List Byte) (s : State) :
    start rom s = s ∨ (s.run = .idle ∧ romWellFormed rom = true ∧ start rom s = resetWith rom s) := by
  by_cases h : s.run = .idle ∧ romWellFormed rom = true
  · exact .inr ⟨h.1, h.2, start_idle h.1 h.2⟩
  · exact .inl (if_neg h)

theorem togglePause_cases (s : State) :
    togglePause s = s ∨ (s.run = .running ∧ togglePause s = s.setRun .paused) ∨
      (s.run = .paused ∧ togglePause s = s.setRun .running) := by
  obtain (hrun | hrun) | hdead := live_or_dead s
  · exact .inr (.inl ⟨hrun, togglePause_running hrun⟩)
  · exact .inr (.inr ⟨hrun, togglePause_paused hrun⟩)
  · exact .inl (togglePause_dead hdead)

/-! ## The timeline (60_exceptions.md R178) -/

theorem step_of_nil {s : State} (h : s.timeline = []) : step s = cycle s := by
  rw [step, advanceTimeline, h]

theorem step_of_cons {s : State} {e : Event} {rest : List Event} (h : s.timeline = e :: rest) :
    step s = perform e { s with timeline := rest } := by
  rw [step, advanceTimeline, h]

theorem perform_answers (e : Event) (s : State) : ∃ t, perform e s = .next t := by
  cases e with
  | cycle => exact cycle_answers s
  | _ => exact ⟨_, rfl⟩

theorem step_answers (s : State) : ∃ t, step s = .next t := by
  cases h : s.timeline with
  | nil => rw [step_of_nil h]; exact cycle_answers s
  | cons e rest => rw [step_of_cons h]; exact perform_answers e _

theorem cycle_timeline {s t : State} (h : cycle s = .next t) : t.timeline = s.timeline := by
  obtain rfl | ⟨_, -, rfl⟩ | ⟨_, i, -, -, -, -, -, rfl⟩ := cycle_outcomes h
  · rfl
  · rfl
  · exact completed_timeline s i

/-- No event adds to the timeline or takes from it. -/
theorem perform_timeline {e : Event} {s t : State} (h : perform e s = .next t) : t.timeline = s.timeline := by
  obtain ⟨-, hcycle⟩ | ⟨-, rfl⟩ | ⟨k, -, rfl⟩ | ⟨k, -, rfl⟩ | ⟨rom, -, rfl⟩ | ⟨-, rfl⟩ | ⟨-, rfl⟩ := perform_cases h
  · exact cycle_timeline hcycle
  · obtain h | h := tick_cases s <;> simp [h]
  · obtain ⟨-, h⟩ | ⟨-, h⟩ | ⟨_, -, -, h⟩ := keyDown_cases k s <;> simp [h]
  · obtain h | h := keyUp_cases k s <;> simp [h]
  · obtain h | ⟨-, -, h⟩ := start_cases rom s <;> simp [h, resetWith]
  · rfl
  · obtain h | ⟨-, h⟩ | ⟨-, h⟩ := togglePause_cases s <;> simp [h]

/-! ## The statements about a step -/

/-- Settles O7: concatenation puts the byte at `PC` in bits 15:8. -/
theorem fetchIsBigEndian : Obligations.FetchIsBigEndian := by
  refine fun s => ⟨fun hlt => ⟨_, State.fetchWord_of_lt hlt, ?_⟩, s.fetchWord_eq_none_iff.mpr⟩
  rw [wordOfBytes, BitVec.toNat_append, ← Nat.shiftLeft_add_eq_or_of_lt (BitVec.isLt _), Nat.shiftLeft_eq]
  omega

/-- Settles O8: with nothing placed, or a cycle placed next, a step is a cycle, which passes its three checks. -/
theorem stepRunsTheDecodedInstruction : Obligations.StepRunsTheDecodedInstruction := by
  refine fun s w i hrun hkw hf hd => ⟨fun hnil => ?_, fun rest hcons => ?_⟩
  · rw [step_of_nil hnil, cycle_of_decode_ok hrun hkw hf hd]
  · rw [step_of_cons hcons]
    exact cycle_of_decode_ok (s := { s with timeline := rest }) hrun hkw hf hd

/-- Settles O9: the first two tests of a cycle. -/
theorem cycleIsGatedByRunAndLatch : Obligations.CycleIsGatedByRunAndLatch := fun _ => cycle_gated

/-- Settles O10: a step performs the head of the list on the state with the tail, and no event changes the list. -/
theorem timelineIsPerformedInArrivalOrder : Obligations.TimelineIsPerformedInArrivalOrder := by
  intro s e rest hcons
  obtain ⟨t, ht⟩ := perform_answers e { s with timeline := rest }
  exact ⟨t, (step_of_cons hcons).trans ht, ht, perform_timeline ht⟩

/-- Settles O11: an instruction faults or completes, either way with a next state, and so does every event. -/
theorem everyStepAnswersANextState : Obligations.EveryStepAnswersANextState := ⟨exec_answers, step_answers⟩

/-- Settles O15: the gated cycles do not halt a running block, and the others are precise. -/
theorem faultsChangeOnlyTheRunState : Obligations.FaultsChangeOnlyTheRunState := by
  intro s t r hrun hcycle hhalted
  by_cases hkw : s.kw = none
  · obtain ⟨u, hu, -, hprecise⟩ := cycle_halts_iff hrun hkw
    obtain rfl : t = u := Host.Outcome.next.inj (hcycle.symm.trans hu)
    exact hprecise r hhalted
  · rw [cycle_gated (.inr hkw)] at hcycle
    cases hcycle
    rw [hrun] at hhalted
    cases hhalted

end Sys2Proof.Machine
end

section
/-! The invariant `State.Inv` holds at reset and every step keeps it. -/

namespace Sys2Proof.Machine

/-! ## What the invariant speaks of -/

/-- The invariant speaks only of memory, `PC`, the call stack and the latch, and of `RUN` in its last clause. -/
theorem State.Inv.of_same_parts {s t : State} (h : s.Inv) (hmem : t.mem = s.mem) (hpc : t.pc = s.pc) (hsp : t.sp = s.sp)
    (hstack : t.stack = s.stack) (hkw : t.kw = s.kw) (hhalted : ∀ r, t.run = .halted r → s.kw = none) : t.Inv where
  memWf := hmem ▸ h.memWf
  pcBound := hpc ▸ h.pcBound
  stackBound := by rw [hsp, hstack]; exact h.stackBound
  waitsAtKeyWait := by
    have hfetch : t.fetchWord = s.fetchWord := by simp only [State.fetchWord, State.fetchBytes, hmem, hpc]
    rw [hkw, hfetch]
    exact h.waitsAtKeyWait
  haltedAwaitsNoKey := fun r hr => hkw.trans (hhalted r hr)

/-- With no key awaited the invariant is about memory, `PC` and the live return addresses. -/
theorem State.Inv.of_no_wait {t : State} (hkw : t.kw = none) (hmem : Memory.wf t.mem = true) (hpc : t.pc.toNat ≤ 0x10FE)
    (hstack : ∀ k : Fin 16, k.val < t.sp.val → t.stack[k].toNat ≤ 0x1000) : t.Inv where
  memWf := hmem
  pcBound := hpc
  stackBound := hstack
  waitsAtKeyWait := fun x hx => by rw [hkw] at hx; cases hx
  haltedAwaitsNoKey := fun _ _ => hkw

theorem State.Inv.setTimeline {s : State} (h : s.Inv) (es : List Event) : State.Inv { s with timeline := es } :=
  h.of_same_parts rfl rfl rfl rfl rfl h.haltedAwaitsNoKey

theorem State.Inv.setRun {s : State} (h : s.Inv) {r : RunState} (hr : ∀ q, r = .halted q → s.kw = none) :
    (s.setRun r).Inv := h.of_same_parts rfl rfl rfl rfl rfl hr

/-- A fetched word lies below 4096, so `PC + 2` and `PC + 4` stay far from the wrap (10_state.md R25 (c)). -/
theorem State.pc_lt_of_fetchWord {s : State} {w : Word} (h : s.fetchWord = some w) : s.pc.toNat + 1 < 4096 := by
  by_contra hle
  rw [(s.fetchWord_eq_none_iff).mpr (by omega)] at h
  cases h

theorem State.toNat_pc_add_le {s : State} (hpc : s.pc.toNat + 1 < 4096) (c : Word) :
    (s.pc + c).toNat ≤ 4094 + c.toNat := by
  rw [BitVec.toNat_add]
  exact (Nat.mod_le _ _).trans (by omega)

/-! ## An instruction that completes -/

theorem toNat_computedTarget (s : State) (nnn : BitVec 12) :
    (s.computedTarget nnn).toNat = nnn.toNat + (s.reg 0).toNat := by
  have hn := nnn.isLt
  have hv := (s.reg 0).isLt
  rw [State.computedTarget, BitVec.toNat_ofNat]
  omega

section
variable {s : State} {i : Instr}

theorem completed_mem_wf (h : Memory.wf s.mem = true) : Memory.wf (completed s i).mem = true := by
  cases i with
  | ldB | stRegs => exact Memory.wf_store _ _ h
  | _ => exact h

/-- A return goes to a live return address, a jump to at most `0xFFF + 0xFF`, and every other instruction at most 4
bytes on. -/
theorem completed_pc_le (hfault : execFault s i = none) (hpc : s.pc.toNat + 1 < 4096)
    (hstack : ∀ k : Fin 16, k.val < s.sp.val → s.stack[k].toNat ≤ 0x1000) : (completed s i).pc.toNat ≤ 0x10FE := by
  have hadvance {c : Word} (hc : c.toNat ≤ 4) : (s.pc + c).toNat ≤ 0x10FE :=
    (State.toNat_pc_add_le hpc c).trans (by omega)
  cases i with
  | ret =>
    have hsp : s.sp.val ≠ 0 := fun hempty => by simp [execFault, hempty] at hfault
    exact (hstack ⟨s.sp.val - 1, by omega⟩ (by simp; omega)).trans (by decide)
  | jp nnn | call nnn =>
    have htarget : (zext16 nnn).toNat < 4096 := toNat_zext16 nnn ▸ nnn.isLt
    exact (Nat.le_of_lt htarget).trans (by decide)
  | jpV0 nnn =>
    have hn := nnn.isLt
    have hv := (s.reg 0).isLt
    rw [completed, State.setPc_pc, toNat_computedTarget]
    omega
  | seImm | sneImm | seReg | sneReg | skp | sknp => exact hadvance (by split <;> decide)
  | ldVxK => rw [completed, State.setKw_pc]; omega
  | _ => exact hadvance (by decide)

/-- A call pushes `PC + 2`, a return only gives up a slot. -/
theorem completed_stack_le (hfault : execFault s i = none) (hpc : s.pc.toNat + 1 < 4096)
    (hstack : ∀ k : Fin 16, k.val < s.sp.val → s.stack[k].toNat ≤ 0x1000) :
    ∀ k : Fin 16, k.val < (completed s i).sp.val → (completed s i).stack[k].toNat ≤ 0x1000 := by
  cases i with
  | ret => exact fun k hk => hstack k (Nat.lt_of_lt_of_le hk (Nat.sub_le _ _))
  | call nnn =>
    intro k hk
    have hfull : s.sp.val ≠ 16 := fun hfull => by simp [execFault, hfull] at hfault
    have hsp : (s.sp + 1).val = s.sp.val + 1 := Fin.val_add_one_of_lt' (by omega)
    replace hk : k.val < s.sp.val + 1 := hsp ▸ hk
    simp only [completed, Fin.getElem_fin, Vector.getElem_setIfInBounds]
    split
    next => exact State.toNat_pc_add_le hpc 2
    next hne => exact hstack k (by omega)
  | _ => exact hstack

theorem State.Inv.completed (h : s.Inv) (hrun : s.run = .running) (hkw : s.kw = none) {w : Word}
    (hf : s.fetchWord = some w) (hd : decodeWord w = .ok i) (hfault : execFault s i = none) :
    (completed s i).Inv := by
  have hpc := State.pc_lt_of_fetchWord hf
  by_cases hwait : ∃ x, i = .ldVxK x
  · obtain ⟨x, rfl⟩ := hwait
    refine ⟨h.memWf, h.pcBound, h.stackBound, fun q hq => ⟨w, hf, ?_⟩, fun r hr => ?_⟩
    · obtain rfl : x = q := Option.some.inj hq
      exact hd
    · exact absurd (hrun.symm.trans hr) nofun
  · exact .of_no_wait ((completed_kw s i (not_exists.mp hwait)).trans hkw) (completed_mem_wf h.memWf)
      (completed_pc_le hfault hpc h.stackBound) (completed_stack_le hfault hpc h.stackBound)

end

/-! ## The steps of the agents -/

theorem State.Inv.cycle {s t : State} (h : s.Inv) (hcycle : cycle s = .next t) : t.Inv := by
  obtain rfl | ⟨_, hkw, rfl⟩ | ⟨w, i, hrun, hkw, hf, hd, hfault, rfl⟩ := cycle_outcomes hcycle
  · exact h
  · exact h.setRun fun _ _ => hkw
  · exact h.completed hrun hkw hf hd hfault

theorem State.Inv.tick {s : State} (h : s.Inv) : (tick s).Inv := by
  obtain heq | heq := tick_cases s <;> rw [heq]
  · exact h
  · exact h.of_same_parts rfl rfl rfl rfl rfl h.haltedAwaitsNoKey

/-- A key-down that resolves the wait finds `PC` at the key-wait instruction, so `PC + 2` is bounded like after any
instruction. -/
theorem State.Inv.keyDown {s : State} (h : s.Inv) (k : Key) : (keyDown k s).Inv := by
  obtain ⟨-, heq⟩ | ⟨-, heq⟩ | ⟨x, -, hkw, heq⟩ := keyDown_cases k s <;> rw [heq]
  · exact h
  · exact h.of_same_parts rfl rfl rfl rfl rfl h.haltedAwaitsNoKey
  · obtain ⟨w, hf, -⟩ := h.waitsAtKeyWait x hkw
    have hpc := State.pc_lt_of_fetchWord hf
    exact .of_no_wait rfl h.memWf ((State.toNat_pc_add_le hpc 2).trans (by decide)) h.stackBound

theorem State.Inv.keyUp {s : State} (h : s.Inv) (k : Key) : (keyUp k s).Inv := by
  obtain heq | heq := keyUp_cases k s <;> rw [heq]
  · exact h
  · exact h.of_same_parts rfl rfl rfl rfl rfl h.haltedAwaitsNoKey

/-- The state a reset leaves meets the invariant for every well-formed image. -/
theorem resetWith_inv {rom : List Byte} (hrom : romWellFormed rom = true) (s : State) : (resetWith rom s).Inv := by
  obtain ⟨-, hlen⟩ := (romWellFormed_iff rom).mp hrom
  have hfits : progBase + rom.length ≤ memSize := by simp; omega
  have hmem : Memory.wf (resetWith rom s).mem = true :=
    Memory.wfFrom_mono (Nat.zero_le _) (Memory.wfFrom_image hfits)
  exact .of_no_wait rfl hmem (by simp [resetWith, State.reset]) fun _ hk => absurd hk (Nat.not_lt_zero _)

theorem State.Inv.start {s : State} (h : s.Inv) (rom : List Byte) : (start rom s).Inv := by
  obtain heq | ⟨-, hrom, heq⟩ := start_cases rom s <;> rw [heq]
  · exact h
  · exact resetWith_inv hrom s

theorem State.Inv.togglePause {s : State} (h : s.Inv) : (togglePause s).Inv := by
  obtain heq | ⟨-, heq⟩ | ⟨-, heq⟩ := togglePause_cases s <;> rw [heq]
  · exact h
  · exact h.setRun nofun
  · exact h.setRun nofun

theorem State.Inv.perform {e : Event} {s t : State} (h : s.Inv) (hperform : perform e s = .next t) : t.Inv := by
  obtain ⟨-, hcycle⟩ | ⟨-, rfl⟩ | ⟨k, -, rfl⟩ | ⟨k, -, rfl⟩ | ⟨rom, -, rfl⟩ | ⟨-, rfl⟩ | ⟨-, rfl⟩ :=
    perform_cases hperform
  · exact h.cycle hcycle
  · exact h.tick
  · exact h.keyDown k
  · exact h.keyUp k
  · exact h.start rom
  · exact h.setRun nofun
  · exact h.togglePause

/-! ## The statements -/

/-- Settles O54: a step is a cycle or one event, and each of them keeps the invariant. -/
theorem everyStepKeepsTheInvariant : Obligations.EveryStepKeepsTheInvariant := by
  intro s t h hstep
  obtain ⟨-, hcycle⟩ | ⟨_, rest, -, hperform⟩ := step_cases hstep
  · exact h.cycle hcycle
  · exact (h.setTimeline rest).perform hperform

/-- Settles O53: no key is awaited, no slot is live, and `PC` is 0x200. -/
theorem resetMeetsTheInvariant : Obligations.ResetMeetsTheInvariant :=
  ⟨.of_no_wait rfl State.reset_mem_wf (by decide) fun _ hk => absurd hk (Nat.not_lt_zero _),
    by decide, by decide, by decide⟩

end Sys2Proof.Machine
end

section
/-! Call-stack slots that are not in use (10_state.md R26): no step of any agent can tell them apart. -/

namespace Sys2Proof.Machine

/-- `STACK <- stk`, all slots at once. -/
def State.setStack (s : State) (stk : Vector Word 16) : State := { s with stack := stk }

@[simp] theorem State.setStack_stack (s : State) (stk : Vector Word 16) : (s.setStack stk).stack = stk := rfl
@[simp] theorem State.setStack_kw (s : State) (stk : Vector Word 16) : (s.setStack stk).kw = s.kw := rfl
@[simp] theorem State.setStack_run (s : State) (stk : Vector Word 16) : (s.setStack stk).run = s.run := rfl

namespace SameButDeadSlots
variable {s s' t : State}

theorem refl (s : State) : SameButDeadSlots s s := ⟨rfl, fun _ _ => rfl⟩

/-- The second state is the first with another stack. -/
theorem exists_eq (h : SameButDeadSlots s s') :
    ∃ stk, s' = s.setStack stk ∧ ∀ k : Fin 16, k.val < s.sp.val → stk[k] = s.stack[k] := ⟨s'.stack, h⟩

/-- An update that neither reads nor writes the stack keeps states alike. -/
theorem map {f : State → State} (hf : ∀ s stk, f (s.setStack stk) = (f s).setStack stk) (hsp : ∀ s, (f s).sp = s.sp)
    (h : SameButDeadSlots s s') : SameButDeadSlots (f s) (f s') := by
  obtain ⟨stk, rfl, hlive⟩ := h.exists_eq
  have hself : f s = (f s).setStack s.stack := hf s s.stack
  have hstack : (f s).stack = s.stack := (congrArg State.stack hself).trans (State.setStack_stack _ _)
  rw [hf]
  refine ⟨rfl, fun k hk => ?_⟩
  rw [hstack]
  exact hlive k (hsp s ▸ hk)

theorem setRun (h : SameButDeadSlots s s') (r : RunState) : SameButDeadSlots (s.setRun r) (s'.setRun r) :=
  h.map (f := fun s => s.setRun r) (fun _ _ => rfl) fun _ => rfl

theorem setTimeline (h : SameButDeadSlots s s') (es : List Event) :
    SameButDeadSlots { s with timeline := es } { s' with timeline := es } :=
  h.map (f := fun s => { s with timeline := es }) (fun _ _ => rfl) fun _ => rfl

/-! ## An instruction -/

theorem execFault_eq (h : SameButDeadSlots s s') (i : Instr) : execFault s' i = execFault s i := by
  obtain ⟨stk, rfl, -⟩ := h.exists_eq
  cases i <;> rfl

/-- A return reads the top entry, which is in use. -/
theorem completed_ret (h : SameButDeadSlots s s') (hsp : s.sp.val ≠ 0) :
    SameButDeadSlots (completed s .ret) (completed s' .ret) := by
  obtain ⟨stk, rfl, hlive⟩ := h.exists_eq
  have htop : stk[s.sp.val - 1] = s.stack[s.sp.val - 1] := hlive ⟨s.sp.val - 1, by omega⟩ (by simp; omega)
  exact ⟨by simp [Machine.completed, State.setStack, htop],
    fun k hk => hlive k (Nat.lt_of_lt_of_le hk (Nat.sub_le _ _))⟩

/-- A call writes the slot it brings into use. -/
theorem completed_call (h : SameButDeadSlots s s') (nnn : BitVec 12) (hsp : s.sp.val ≠ 16) :
    SameButDeadSlots (completed s (.call nnn)) (completed s' (.call nnn)) := by
  obtain ⟨stk, rfl, hlive⟩ := h.exists_eq
  refine ⟨rfl, fun k hk => ?_⟩
  have hdepth : (s.sp + 1).val = s.sp.val + 1 := Fin.val_add_one_of_lt' (by omega)
  replace hk : k.val < s.sp.val + 1 := hdepth ▸ hk
  simp only [Machine.completed, State.setStack, Fin.getElem_fin, Vector.getElem_setIfInBounds]
  split
  next => rfl
  next hne => exact hlive k (by omega)

theorem completed (h : SameButDeadSlots s s') {i : Instr} (hfault : execFault s i = none) :
    SameButDeadSlots (completed s i) (completed s' i) := by
  cases i with
  | ret => exact h.completed_ret fun hempty => by simp [execFault, hempty] at hfault
  | call nnn => exact h.completed_call nnn fun hfull => by simp [execFault, hfull] at hfault
  | _ => exact h.map (f := fun s => Machine.completed s _) (fun _ _ => rfl) fun _ => rfl

theorem exec (h : SameButDeadSlots s s') {i : Instr} (hexec : exec i s = .next t) :
    ∃ t', Machine.exec i s' = .next t' ∧ SameButDeadSlots t t' := by
  obtain ⟨r, hfault, rfl⟩ | ⟨hfault, rfl⟩ := exec_cases hexec
  · exact ⟨_, exec_of_fault ((h.execFault_eq i).trans hfault), h.setRun _⟩
  · exact ⟨_, exec_of_fault_none ((h.execFault_eq i).trans hfault), h.completed hfault⟩

/-! ## The agents -/

theorem cycle (h : SameButDeadSlots s s') (hcycle : cycle s = .next t) :
    ∃ t', Machine.cycle s' = .next t' ∧ SameButDeadSlots t t' := by
  obtain ⟨hrun', hkw', hfetch'⟩ : s'.run = s.run ∧ s'.kw = s.kw ∧ s'.fetchWord = s.fetchWord := by
    obtain ⟨stk, rfl, -⟩ := h.exists_eq
    exact ⟨rfl, rfl, rfl⟩
  obtain ⟨hrun, rfl⟩ | ⟨-, hkw, rfl⟩ | ⟨hrun, hkw, hf, rfl⟩ | ⟨w, e, hrun, hkw, hf, hd, rfl⟩ |
    ⟨w, i, hrun, hkw, hf, hd, hexec⟩ := cycle_cases hcycle
  · exact ⟨s', cycle_gated (.inl (hrun' ▸ hrun)), h⟩
  · exact ⟨s', cycle_gated (.inr (hkw' ▸ hkw)), h⟩
  · exact ⟨_, cycle_of_fetch_none (hrun'.trans hrun) (hkw'.trans hkw) (hfetch'.trans hf), h.setRun _⟩
  · exact ⟨_, cycle_of_decode_error (hrun'.trans hrun) (hkw'.trans hkw) (hfetch'.trans hf) hd, h.setRun _⟩
  · rw [cycle_of_decode_ok (hrun'.trans hrun) (hkw'.trans hkw) (hfetch'.trans hf) hd]
    exact h.exec hexec

theorem tick (h : SameButDeadSlots s s') : SameButDeadSlots (tick s) (tick s') := by
  refine h.map (fun s stk => ?_) fun s => ?_
  · by_cases hrun : s.run = .running
    · rw [tick_running (s := s.setStack stk) hrun, tick_running hrun]; rfl
    · rw [tick_not_running (s := s.setStack stk) hrun, tick_not_running hrun]
  · obtain heq | heq := tick_cases s <;> simp [heq]

theorem keyDown (h : SameButDeadSlots s s') (k : Key) : SameButDeadSlots (keyDown k s) (keyDown k s') := by
  refine h.map (fun s stk => ?_) fun s => ?_
  · simp only [Machine.keyDown, resolveWait, State.setKey_kw, State.setStack_kw, State.setStack_run]
    cases s.run <;> cases s.kw <;> rfl
  · obtain ⟨-, heq⟩ | ⟨-, heq⟩ | ⟨_, -, -, heq⟩ := keyDown_cases k s <;> simp [heq]

theorem keyUp (h : SameButDeadSlots s s') (k : Key) : SameButDeadSlots (keyUp k s) (keyUp k s') := by
  refine h.map (fun s stk => ?_) fun s => ?_
  · simp only [Machine.keyUp, State.setStack_run]; cases s.run <;> rfl
  · obtain heq | heq := keyUp_cases k s <;> simp [heq]

theorem togglePause (h : SameButDeadSlots s s') : SameButDeadSlots (togglePause s) (togglePause s') := by
  refine h.map (fun s stk => ?_) fun s => ?_
  · simp only [Machine.togglePause, State.setStack_run]; cases s.run <;> rfl
  · obtain heq | ⟨-, heq⟩ | ⟨-, heq⟩ := togglePause_cases s <;> simp [heq]

/-- A start that is not ignored overwrites the whole stack. -/
theorem start (h : SameButDeadSlots s s') (rom : List Byte) : SameButDeadSlots (start rom s) (start rom s') := by
  obtain ⟨stk, rfl, -⟩ := h.exists_eq
  by_cases hstart : s.run = .idle ∧ romWellFormed rom = true
  · rw [start_idle hstart.1 hstart.2, start_idle (s := s.setStack stk) hstart.1 hstart.2]
    exact refl _
  · have heq : Machine.start rom s = s := if_neg hstart
    have heq' : Machine.start rom (s.setStack stk) = s.setStack stk := if_neg hstart
    rwa [heq, heq']

theorem perform (h : SameButDeadSlots s s') {e : Event} (hperform : perform e s = .next t) :
    ∃ t', Machine.perform e s' = .next t' ∧ SameButDeadSlots t t' := by
  obtain ⟨rfl, hcycle⟩ | ⟨rfl, rfl⟩ | ⟨k, rfl, rfl⟩ | ⟨k, rfl, rfl⟩ | ⟨rom, rfl, rfl⟩ | ⟨rfl, rfl⟩ | ⟨rfl, rfl⟩ :=
    perform_cases hperform
  · exact h.cycle hcycle
  · exact ⟨_, rfl, h.tick⟩
  · exact ⟨_, rfl, h.keyDown k⟩
  · exact ⟨_, rfl, h.keyUp k⟩
  · exact ⟨_, rfl, h.start rom⟩
  · exact ⟨_, rfl, h.setRun .idle⟩
  · exact ⟨_, rfl, h.togglePause⟩

end SameButDeadSlots

/-- Settles O56: two states that are alike have the same timeline, and its next event leaves them alike. -/
theorem deadStackSlotsAreUnobservable : Obligations.DeadStackSlotsAreUnobservable := by
  intro s s' t h hstep
  have htimeline : s'.timeline = s.timeline := by
    obtain ⟨stk, rfl, -⟩ := h.exists_eq
    rfl
  obtain ⟨hnil, hcycle⟩ | ⟨e, rest, hcons, hperform⟩ := step_cases hstep
  · rw [step_of_nil (htimeline.trans hnil)]
    exact h.cycle hcycle
  · rw [step_of_cons (htimeline.trans hcons)]
    exact (h.setTimeline rest).perform hperform

end Sys2Proof.Machine
end

section
/-! The timer's and the host's events (60_exceptions.md sections 3 to 5) and the reset (70_reset_and_hazards.md), each
as one step. -/

namespace Sys2Proof.Machine

/-! ## Keys -/

theorem State.setKey_key_same (s : State) (k : Key) (d : Bool) : (s.setKey k d).keys[k] = d := by
  simp

theorem State.setKey_key_ne (s : State) {k j : Key} (d : Bool) (h : j ≠ k) : (s.setKey k d).keys[j] = s.keys[j] := by
  have hval : k.val ≠ j.val := fun e => h (Fin.ext e.symm)
  simp [hval]

theorem toNat_keyCode (k : Key) : (BitVec.ofNat 8 k.val).toNat = k.val := by
  rw [BitVec.toNat_ofNat]
  omega

/-- Settles O47: the three things a key-down can do (`keyDown_cases`), each in the run states and with the latch that
allow it. -/
theorem keyDownResolvesTheWait : Obligations.KeyDownResolvesTheWait := by
  intro k s
  refine ⟨keyDown k s, rfl, ?_⟩
  obtain ⟨hdead, heq⟩ | ⟨hlive, heq⟩ | ⟨x, hrun, hkw, heq⟩ := keyDown_cases k s <;> rw [heq]
  · obtain hidle | ⟨r, hhalted⟩ := hdead
    · exact ⟨by simp [hidle], by simp [hidle], fun _ => rfl, fun _ => rfl⟩
    · exact ⟨by simp [hhalted], by simp [hhalted], fun _ => rfl, fun _ => rfl⟩
  · refine ⟨fun _ => ⟨s.setKey_key_same k _, fun j => s.setKey_key_ne _⟩, ?_, fun _ => rfl, ?_⟩
    · obtain hpaused | ⟨-, hkw⟩ := hlive
      · simp [hpaused]
      · simp [hkw]
    · obtain hpaused | ⟨hrun, -⟩ := hlive
      · simp [hpaused]
      · simp [hrun]
  · refine ⟨fun _ => ⟨s.setKey_key_same k _, fun j => s.setKey_key_ne _⟩, fun _ y hy => ?_, ?_, ?_⟩
    · obtain rfl : x = y := Option.some.inj (hkw.symm.trans hy)
      refine ⟨?_, fun r hr => State.setReg_reg_ne _ _ hr, rfl, rfl, rfl⟩
      rw [State.advance_reg, State.setKw_reg, State.setReg_reg_same, toNat_keyCode]
    · simp [hrun, hkw]
    · simp [hrun]

/-- Settles O48: in the live run states one key is written, in the others nothing. -/
theorem keyUpOnlyReleasesTheKey : Obligations.KeyUpOnlyReleasesTheKey := by
  intro k s
  refine ⟨keyUp k s, rfl, ?_⟩
  obtain hlive | hdead := live_or_dead s
  · rw [keyUp_live k hlive]
    refine ⟨rfl, fun _ => ⟨s.setKey_key_same k _, fun j => s.setKey_key_ne _⟩, fun hdead => ?_⟩
    obtain hrun | hrun := hlive <;> simp [hrun] at hdead
  · rw [keyUp_dead k hdead]
    refine ⟨rfl, fun hlive => ?_, fun _ => rfl⟩
    obtain hrun | hrun := hlive <;> simp [hrun] at hdead

/-! ## The run state -/

theorem dead_of_not_live {s : State} (hrunning : s.run ≠ .running) (hpaused : s.run ≠ .paused) :
    s.run = .idle ∨ ∃ r, s.run = .halted r :=
  (live_or_dead s).resolve_left (not_or.mpr ⟨hrunning, hpaused⟩)

theorem stop_idle {s : State} (h : s.run = .idle) : stop s = s := by
  have heta : s.setRun s.run = s := rfl
  rwa [h] at heta

/-- A cycle of a running block keeps it running or halts it (60_exceptions.md R168). -/
theorem cycle_running_or_halted {s : State} (h : s.run = .running) :
    ∃ t, cycle s = .next t ∧ (t.run = .running ∨ ∃ r, t.run = .halted r) := by
  obtain ⟨t, ht⟩ := cycle_answers s
  refine ⟨t, ht, ?_⟩
  obtain rfl | ⟨r, -, rfl⟩ | ⟨_, i, -, -, -, -, -, rfl⟩ := cycle_outcomes ht
  · exact .inl h
  · exact .inr ⟨r, rfl⟩
  · exact .inl ((completed_run s i).trans h)

theorem tick_run (s : State) : (tick s).run = s.run := by
  obtain heq | heq := tick_cases s <;> simp [heq]

theorem keyDown_run (k : Key) (s : State) : (keyDown k s).run = s.run := by
  obtain ⟨-, heq⟩ | ⟨-, heq⟩ | ⟨_, -, -, heq⟩ := keyDown_cases k s <;> simp [heq]

theorem keyUp_run (k : Key) (s : State) : (keyUp k s).run = s.run := by
  obtain heq | heq := keyUp_cases k s <;> simp [heq]

theorem romWellFormed_false {rom : List Byte} (h : rom = [] ∨ 3584 < rom.length) : romWellFormed rom = false := by
  refine Bool.eq_false_iff.mpr fun hwf => ?_
  obtain ⟨hpos, hle⟩ := (romWellFormed_iff rom).mp hwf
  obtain rfl | hlong := h
  · simp at hpos
  · omega

/-- Settles O50: one equation per event and run state. -/
theorem runStateMachine : Obligations.RunStateMachine := by
  intro s
  refine ⟨?pause, ?resume, ?pauseIgnored, ?stop, ?stopIdle, ?start, ?startIgnored, cycle_running_or_halted, ?notRunning,
    ?keepsRun⟩
  case pause => exact fun h => congrArg Host.Outcome.next (togglePause_running h)
  case resume => exact fun h => congrArg Host.Outcome.next (togglePause_paused h)
  case pauseIgnored =>
    exact fun hrunning hpaused => congrArg Host.Outcome.next (togglePause_dead (dead_of_not_live hrunning hpaused))
  case stop => exact fun _ => ⟨stop s, rfl, rfl⟩
  case stopIdle => exact fun h => congrArg Host.Outcome.next (stop_idle h)
  case start =>
    intro rom hidle hpos hle
    exact ⟨_, congrArg Host.Outcome.next (start_idle hidle ((romWellFormed_iff rom).mpr ⟨hpos, hle⟩)), rfl⟩
  case startIgnored =>
    exact fun rom h => congrArg Host.Outcome.next (start_ignored (h.imp_right romWellFormed_false))
  case notRunning => exact fun h => ⟨cycle_gated (.inl h), congrArg Host.Outcome.next (tick_not_running h)⟩
  case keepsRun =>
    rintro e t (rfl | ⟨k, rfl⟩ | ⟨k, rfl⟩) h <;> cases h
    · exact tick_run s
    · exact keyDown_run k s
    · exact keyUp_run k s

/-! ## The reset -/

theorem fontTable_length : fontTable.length = 80 := rfl

theorem unlisted_of_le {a : Nat} (h : 80 ≤ a) : unlisted a = 0 := by
  rw [unlisted, List.getD_eq_default _ _ (fontTable_length ▸ h)]

/-- Settles O51: memory reads as the image where the image lies and as at reset elsewhere; every other item is written
out in the reset state. -/
theorem startResetsEverything : Obligations.StartResetsEverything := by
  intro rom s hidle hpos hle
  refine ⟨resetWith rom s,
    congrArg Host.Outcome.next (start_idle hidle ((romWellFormed_iff rom).mpr ⟨hpos, hle⟩)), ?image, ?above,
    ?between, ?font, ?regs, rfl, rfl, rfl, ?stack, rfl, rfl, ?keys, rfl, ?pixels, rfl⟩
  case image => exact fun k hk => Memory.read_image_inside hk
  case above => exact fun a ha _ => (Memory.read_image_above ha).trans (unlisted_of_le (by omega))
  case between => exact fun a ha hlt => (Memory.read_image_below hlt).trans (unlisted_of_le ha)
  case font =>
    have hfont : (List.range 80).map (Memory.read (resetWith rom s).mem) = (List.range 80).map unlisted :=
      List.map_congr_left fun a ha => Memory.read_image_below ((List.mem_range.mp ha).trans (by decide))
    rw [hfont]
    rfl
  case regs => exact fun r => by simp [State.reg, resetWith, State.reset]
  case stack => exact fun k => by simp [resetWith, State.reset]
  case keys => exact fun k => by simp [resetWith, State.reset]
  case pixels => exact fun col _ row _ => Frame.pixel_clear col row

/-- Settles O52: the byte 0 is what memory reads as at 0x200 anyway, so the image lists no cell. -/
theorem resetIsStartOfAnImageOfZeros : Obligations.ResetIsStartOfAnImageOfZeros :=
  fun _ hidle => congrArg Host.Outcome.next (start_idle hidle rfl)

end Sys2Proof.Machine
end

section
/-! Runs of any number of steps (60_exceptions.md R167, R173, R186; 70_reset_and_hazards.md R205): what one placed event
does in the run state at hand, and an induction over the events. -/

namespace Sys2Proof.Machine

theorem run_succ {s t : State} (n : Nat) (h : step s = .next t) :
    Sys2Proof.core.run (n + 1) s = Sys2Proof.core.run n t := by
  simp only [Host.Core.run, show Sys2Proof.core.step s = .next t from h]

/-! ## Halted (R167) -/

theorem perform_halted {s : State} {e : Event} {r : HaltReason} (hrun : s.run = .halted r) (he : e ≠ .stop) :
    perform e s = .next s := by
  have hrunning : s.run ≠ .running := by simp [hrun]
  have hidle : s.run ≠ .idle := by simp [hrun]
  cases e with
  | cycle => exact cycle_gated (.inl hrunning)
  | tick => exact congrArg Host.Outcome.next (tick_not_running hrunning)
  | keyDown k => exact congrArg Host.Outcome.next (keyDown_dead k (.inr ⟨r, hrun⟩))
  | keyUp k => exact congrArg Host.Outcome.next (keyUp_dead k (.inr ⟨r, hrun⟩))
  | start rom => exact congrArg Host.Outcome.next (start_ignored (.inl hidle))
  | stop => exact absurd rfl he
  | togglePause => exact congrArg Host.Outcome.next (togglePause_dead (.inr ⟨r, hrun⟩))

theorem step_halted {s : State} {r : HaltReason} (hrun : s.run = .halted r) (hstop : ∀ e ∈ s.timeline, e ≠ .stop) :
    step s = .next { s with timeline := s.timeline.tail } := by
  cases htl : s.timeline with
  | nil =>
    have hself : { s with timeline := [] } = s := by rw [← htl]
    rw [step_of_nil htl, List.tail_nil, hself]
    exact cycle_gated (.inl (by simp [hrun]))
  | cons e rest =>
    rw [step_of_cons htl]
    exact perform_halted (s := { s with timeline := rest }) hrun (hstop e (by simp [htl]))

/-- Settles O16: each step takes one event off, and what is left of the timeline holds no stop either. -/
theorem haltedIsTerminal : Obligations.HaltedIsTerminal := by
  intro n
  induction n with
  | zero => exact fun _ _ _ _ => rfl
  | succ n ih =>
    intro s r hrun hstop
    rw [run_succ n (step_halted hrun hstop),
      ih { s with timeline := s.timeline.tail } r hrun fun e he => hstop e (List.mem_of_mem_tail he)]
    simp only [List.drop_tail]

/-! ## Ticks and the key wait (R173, R186) -/

theorem perform_tick_running {s : State} (hrun : s.run = .running) :
    perform .tick s = .next ((s.setDt (decrement s.dt)).setSt (decrement s.st)) :=
  congrArg Host.Outcome.next (tick_running hrun)

/-- Settles O46: each tick takes 1 off both timers as long as they are not 0. -/
theorem ticksCountDownToZero : Obligations.TicksCountDownToZero := by
  intro n
  induction n with
  | zero => exact fun s rest _ htl => ⟨s, rfl, rfl, rfl, by rw [← show s.timeline = rest from htl]⟩
  | succ n ih =>
    intro s rest hrun htl
    have hstep := (step_of_cons htl).trans (perform_tick_running hrun)
    obtain ⟨t, ht, hdt, hst, hframe⟩ := ih
      ((State.setDt { s with timeline := List.replicate n .tick ++ rest } (decrement s.dt)).setSt (decrement s.st)) rest
      hrun rfl
    refine ⟨t, (run_succ n hstep).trans ht, ?_, ?_, hframe⟩
    · rw [hdt, State.setSt_dt, State.setDt_dt, toNat_decrement, Nat.sub_sub, Nat.add_comm]
    · rw [hst, State.setSt_st, toNat_decrement, Nat.sub_sub, Nat.add_comm]

/-- The events that a key wait lets through: each leaves the latch armed and the block running. -/
theorem perform_waiting {s : State} {x : Reg} {e : Event} (hrun : s.run = .running) (hkw : s.kw = some x)
    (he : e = .cycle ∨ e = .tick ∨ ∃ k, e = .keyUp k) :
    ∃ t, perform e s = .next t ∧ t.dt.toNat = s.dt.toNat - [e].count .tick ∧
      t.st.toNat = s.st.toNat - [e].count .tick ∧ t = { s with dt := t.dt, st := t.st, keys := t.keys } := by
  obtain rfl | rfl | ⟨k, rfl⟩ := he
  · exact ⟨s, cycle_gated (.inr (by simp [hkw])), rfl, rfl, rfl⟩
  · exact ⟨_, perform_tick_running hrun, toNat_decrement _, toNat_decrement _, rfl⟩
  · exact ⟨_, congrArg Host.Outcome.next (keyUp_live k (.inl hrun)), rfl, rfl, rfl⟩

/-- Settles O49: by induction over the events, each of which the wait lets through. -/
theorem keyWaitSuspendsOnlyTheExecutor : Obligations.KeyWaitSuspendsOnlyTheExecutor := by
  intro es rest
  induction es with
  | nil => exact fun s x _ _ htl _ => ⟨s, rfl, rfl, rfl, by rw [← show s.timeline = rest from htl]⟩
  | cons e es ih =>
    intro s x hrun hkw htl hes
    obtain ⟨u, hu, hdt, hst, hframe⟩ :=
      perform_waiting (s := { s with timeline := es ++ rest }) hrun hkw (hes e List.mem_cons_self)
    obtain ⟨t, ht, hdt', hst', hframe'⟩ := ih u x (by rw [hframe]; exact hrun) (by rw [hframe]; exact hkw)
      (by rw [hframe]) fun e he => hes e (List.mem_cons_of_mem _ he)
    have hcount : (e :: es).count .tick = [e].count .tick + es.count .tick := List.count_append (l₁ := [e])
    refine ⟨t, (run_succ _ ((step_of_cons htl).trans hu)).trans ht, ?_, ?_, ?_⟩
    · rw [hdt', hdt, hcount, Nat.sub_sub]
    · rw [hst', hst, hcount, Nat.sub_sub]
    · rw [hframe', hframe]

/-! ## A finished program (R205) -/

theorem setPc_self {s : State} {w : Word} (h : s.pc.toNat = w.toNat) : s.setPc w = s := by
  obtain rfl : s.pc = w := BitVec.eq_of_toNat_eq h
  rfl

theorem State.Finished.cycle {s : State} (h : s.Finished) : cycle s = .next s := by
  obtain ⟨hrun, hkw, a, hpc, hf⟩ := h
  have hword : BitVec.ofNat 16 (0x1000 + a.toNat) = encode (.jp a) := ofNat_eq_formatNNN 1 a
  rw [cycle_of_decode_ok hrun hkw hf (hword ▸ decodeWord_encode _)]
  exact congrArg Host.Outcome.next (setPc_self (hpc.trans (toNat_zext16 a).symm))

/-- Settles O55: a cycle at a jump to itself changes nothing, so the next one is at the same jump. -/
theorem finishedProgramsStandStill : Obligations.FinishedProgramsStandStill := by
  intro n
  induction n with
  | zero => exact fun s rest _ htl => by rw [← show s.timeline = rest from htl]; rfl
  | succ n ih =>
    intro s rest hfin htl
    have hfin' : State.Finished { s with timeline := List.replicate n .cycle ++ rest } := hfin
    rw [run_succ n ((step_of_cons htl).trans hfin'.cycle), ih _ rest hfin' rfl]

end Sys2Proof.Machine
end

section
/-! The remaining register, skip, keypad, timer and control instructions (files 40, 42 and 44 of the spec). -/

namespace Sys2Proof

/-! ## Words with a function code -/

theorem ofNat_eq_formatX (op : BitVec 4) (nn : Byte) (x : Reg) :
    BitVec.ofNat 16 (0x1000 * op.toNat + nn.toNat + 0x100 * x.val) = formatXNN op x nn := by
  rw [← ofNat_eq_formatXNN, Nat.add_right_comm]

theorem ofNat_eq_formatXY (op n : BitVec 4) (x y : Reg) :
    BitVec.ofNat 16 (0x1000 * op.toNat + n.toNat + 0x100 * x.val + 0x10 * y.val) = formatXYN op x y n := by
  rw [← ofNat_eq_formatXYN]
  congr 1
  omega

theorem decodeWord_of_eq_encode {w : Word} {i : Instr} (h : w = encode i) : decodeWord w = .ok i :=
  h ▸ decodeWord_encode i

end Sys2Proof

namespace Sys2Proof.Machine

/-! ## One register written, no flag -/

/-- Settles O18: addition of bytes is addition modulo 256. -/
theorem addImmediateWrapsWithoutFlag : Obligations.AddImmediateWrapsWithoutFlag := by
  intro x nn s
  obtain ⟨hx, hframe⟩ := s.setReg_advance_result x (s.reg x + nn)
  exact ⟨decodeWord_of_eq_encode (ofNat_eq_formatXNN 7 x nn), _, rfl, by rw [hx, BitVec.toNat_add], hframe⟩

/-- Settles O20: each bit of the result is the operation on the two bits. -/
theorem logicOperationsWithoutFlag : Obligations.LogicOperationsWithoutFlag := by
  intro x y s
  obtain ⟨hor, hframeOr⟩ := s.setReg_advance_result x (s.reg x ||| s.reg y)
  obtain ⟨hand, hframeAnd⟩ := s.setReg_advance_result x (s.reg x &&& s.reg y)
  obtain ⟨hxor, hframeXor⟩ := s.setReg_advance_result x (s.reg x ^^^ s.reg y)
  exact ⟨⟨decodeWord_of_eq_encode (ofNat_eq_formatXY 8 1 x y), _, rfl,
      fun k _ => by rw [hor, BitVec.getLsbD_or], hframeOr⟩,
    ⟨decodeWord_of_eq_encode (ofNat_eq_formatXY 8 2 x y), _, rfl,
      fun k _ => by rw [hand, BitVec.getLsbD_and], hframeAnd⟩,
    ⟨decodeWord_of_eq_encode (ofNat_eq_formatXY 8 3 x y), _, rfl,
      fun k _ => by rw [hxor, BitVec.getLsbD_xor], hframeXor⟩⟩

/-- Settles O24: the drawn byte is masked, and the counter of draws moves on before the register is written. -/
theorem randomByteIsMasked : Obligations.RandomByteIsMasked := by
  intro x nn s
  obtain ⟨hx, hothers, hpc, -⟩ := s.drawn.setReg_advance_result x (Config.rnd s.draws &&& nn)
  exact ⟨decodeWord_of_eq_encode (ofNat_eq_formatXNN 0xC x nn), _, rfl,
    fun k _ => by rw [rndWith, hx, BitVec.getLsbD_and], hothers, hpc, rfl, rfl⟩

/-! ## One register written, then the flag (40_alu.md R90) -/

/-- The result unless the destination is `VF`, the flag in `VF`, the other registers, `PC`, and nothing else. -/
theorem State.setRegFlag_advance_result (s : State) (x : Reg) (b f : Byte) :
    (x ≠ 15 → (s.setRegFlag x b f).advance.reg x = b) ∧ (s.setRegFlag x b f).advance.reg 15 = f ∧
      (∀ r, r ≠ x → r ≠ 15 → (s.setRegFlag x b f).advance.reg r = s.reg r) ∧
      (s.setRegFlag x b f).advance.pc = s.pc + 2 ∧
      (s.setRegFlag x b f).advance =
        { s with v := (s.setRegFlag x b f).advance.v, pc := (s.setRegFlag x b f).advance.pc } :=
  ⟨fun hx => s.setRegFlag_reg_dest b f hx, s.setRegFlag_reg_vf x b f, fun _ hr hvf => s.setRegFlag_reg_ne b f hr hvf,
    rfl, rfl⟩

theorem flagByte_decide (p : Prop) [Decidable p] : flagByte (decide p) = if p then 1 else 0 := by
  by_cases h : p <;> simp [flagByte, h]

theorem toNat_flagByte (c : Bool) : (flagByte c).toNat = c.toNat := by cases c <;> rfl

/-- Settles O21: the carry is the test of the exact sum against 256. -/
theorem addRegistersWithCarry : Obligations.AddRegistersWithCarry := by
  intro x y s
  obtain ⟨hx, hvf, hframe⟩ :=
    s.setRegFlag_advance_result x (s.reg x + s.reg y) (flagByte (carry (s.reg x) (s.reg y)))
  exact ⟨decodeWord_of_eq_encode (ofNat_eq_formatXY 8 4 x y), _, rfl, fun hne => by rw [hx hne, BitVec.toNat_add],
    hvf.trans (flagByte_decide _), hframe⟩

theorem toNat_sub_byte (a b : Byte) : ((a - b).toNat : Int) = ((a.toNat : Int) - b.toNat) % 256 := by
  have ha := a.isLt
  have hb := b.isLt
  rw [BitVec.toNat_sub]
  omega

/-- Settles O22: subtraction of bytes is subtraction modulo 256, and the flag compares the operands. -/
theorem subtractRegistersWithNotBorrow : Obligations.SubtractRegistersWithNotBorrow := by
  intro x y s
  obtain ⟨hx, hvf, hframe⟩ :=
    s.setRegFlag_advance_result x (s.reg x - s.reg y) (flagByte (notBorrow (s.reg x) (s.reg y)))
  obtain ⟨hx', hvf', hframe'⟩ :=
    s.setRegFlag_advance_result x (s.reg y - s.reg x) (flagByte (notBorrow (s.reg y) (s.reg x)))
  exact ⟨⟨decodeWord_of_eq_encode (ofNat_eq_formatXY 8 5 x y), _, rfl, fun hne => by rw [hx hne, toNat_sub_byte],
      hvf.trans (flagByte_decide _), hframe⟩,
    ⟨decodeWord_of_eq_encode (ofNat_eq_formatXY 8 7 x y), _, rfl, fun hne => by rw [hx' hne, toNat_sub_byte],
      hvf'.trans (flagByte_decide _), hframe'⟩⟩

/-- The number the shifts read is that of the byte they shift. -/
theorem State.shiftOperand_eq (s : State) (x y : Reg) :
    s.shiftOperand x y = (shiftSourceByte Config.shiftSource x y s).toNat := by
  unfold State.shiftOperand
  cases Config.shiftSource <;> rfl

theorem toNat_shiftedOutRight (b : Byte) : (flagByte (shiftedOutRight b)).toNat = b.toNat % 2 := by
  rw [toNat_flagByte, shiftedOutRight, BitVec.getLsbD, Nat.toNat_testBit, Nat.pow_zero, Nat.div_one]

theorem toNat_shiftedOutLeft (b : Byte) : (flagByte (shiftedOutLeft b)).toNat = b.toNat / 128 := by
  have hb := b.isLt
  rw [toNat_flagByte, shiftedOutLeft, BitVec.getLsbD, Nat.toNat_testBit]
  omega

theorem toNat_ushiftRight_one (b : Byte) : (b >>> 1).toNat = b.toNat / 2 := by
  rw [BitVec.toNat_ushiftRight, Nat.shiftRight_eq_div_pow, Nat.pow_one]

theorem toNat_shiftLeft_one (b : Byte) : (b <<< 1).toNat = b.toNat * 2 % 256 := by
  rw [BitVec.toNat_shiftLeft, Nat.shiftLeft_eq, Nat.pow_one]

/-- Settles O23: a shift by one halves or doubles the source, whichever register it is. -/
theorem shiftsByOneWithBitShiftedOut : Obligations.ShiftsByOneWithBitShiftedOut := by
  intro x y s
  rw [State.shiftOperand_eq]
  generalize hb : shiftSourceByte Config.shiftSource x y s = b
  obtain ⟨hx, hvf, hframe⟩ := s.setRegFlag_advance_result x (b >>> 1) (flagByte (shiftedOutRight b))
  obtain ⟨hx', hvf', hframe'⟩ := s.setRegFlag_advance_result x (b <<< 1) (flagByte (shiftedOutLeft b))
  subst hb
  exact ⟨⟨decodeWord_of_eq_encode (ofNat_eq_formatXY 8 6 x y), _, rfl,
      fun hne => (congrArg BitVec.toNat (hx hne)).trans (toNat_ushiftRight_one _),
      (congrArg BitVec.toNat hvf).trans (toNat_shiftedOutRight _), hframe⟩,
    ⟨decodeWord_of_eq_encode (ofNat_eq_formatXY 8 0xE x y), _, rfl,
      fun hne => (congrArg BitVec.toNat (hx' hne)).trans (toNat_shiftLeft_one _),
      (congrArg BitVec.toNat hvf').trans (toNat_shiftedOutLeft _), hframe'⟩⟩

/-! ## Skips -/

theorem State.skipIf_of_iff (s : State) {c : Bool} {p : Prop} [Decidable p] (h : c = true ↔ p) :
    s.skipIf c = { s with pc := if p then s.pc + 4 else s.pc + 2 } := by
  by_cases hp : p
  · rw [h.mpr hp, if_pos hp]; rfl
  · rw [Bool.eq_false_iff.mpr (mt h.mp hp), if_neg hp]; rfl

theorem State.skipIf_of_iff_not (s : State) {c : Bool} {p : Prop} [Decidable p] (h : c = true ↔ ¬p) :
    s.skipIf c = { s with pc := if p then s.pc + 2 else s.pc + 4 } := by
  rw [s.skipIf_of_iff h, ite_not]

/-- Settles O41: two bytes are equal when their numbers are. -/
theorem skipsOnRegisters : Obligations.SkipsOnRegisters := by
  intro x y s
  have heq : (s.reg x == s.reg y) = true ↔ (s.reg x).toNat = (s.reg y).toNat := by rw [beq_iff_eq, BitVec.toNat_inj]
  have hne : (s.reg x != s.reg y) = true ↔ ¬(s.reg x).toNat = (s.reg y).toNat := by rw [bne_iff_ne, BitVec.toNat_inj]
  exact ⟨decodeWord_of_eq_encode (ofNat_eq_formatXYN 5 x y 0), decodeWord_of_eq_encode (ofNat_eq_formatXYN 9 x y 0),
    congrArg Host.Outcome.next (s.skipIf_of_iff heq), congrArg Host.Outcome.next (s.skipIf_of_iff_not hne)⟩

/-- A code above 15 is the code of no key (42_keypad_timers.md R120). -/
theorem State.keyPressed_iff (s : State) (code : Byte) :
    s.keyPressed code = true ↔ ∃ k : Key, code.toNat = k.val ∧ s.keys[k] = true := by
  unfold State.keyPressed
  split
  next hcode => exact ⟨fun hdown => ⟨⟨code.toNat, hcode⟩, rfl, hdown⟩, fun ⟨k, hk, hdown⟩ => by simpa [hk] using hdown⟩
  next hcode => exact ⟨nofun, fun ⟨k, hk, _⟩ => absurd (hk ▸ k.isLt) hcode⟩

/-- Settles O28: both instructions test the same condition, one of them negated. -/
theorem keySkipsAreComplements : Obligations.KeySkipsAreComplements := by
  intro x s
  have hdown := s.keyPressed_iff (s.reg x)
  exact ⟨decodeWord_of_eq_encode (ofNat_eq_formatX 0xE 0x9E x), decodeWord_of_eq_encode (ofNat_eq_formatX 0xE 0xA1 x),
    congrArg Host.Outcome.next (s.skipIf_of_iff hdown),
    congrArg Host.Outcome.next (s.skipIf_of_iff_not (by rw [Bool.not_eq_true', ← Bool.not_eq_true, hdown]))⟩

/-! ## Key wait and timers -/

/-- Settles O29: the instruction's one write is the latch. -/
theorem waitForKeyArmsTheLatch : Obligations.WaitForKeyArmsTheLatch := fun x _ =>
  ⟨decodeWord_of_eq_encode (ofNat_eq_formatX 0xF 0x0A x), rfl⟩

/-- Settles O30: one register or one timer is written. -/
theorem timerInstructionsResult : Obligations.TimerInstructionsResult := fun x s =>
  ⟨⟨decodeWord_of_eq_encode (ofNat_eq_formatX 0xF 0x07 x), _, rfl, s.setReg_advance_result x s.dt⟩,
    ⟨decodeWord_of_eq_encode (ofNat_eq_formatX 0xF 0x15 x), rfl⟩,
    ⟨decodeWord_of_eq_encode (ofNat_eq_formatX 0xF 0x18 x), rfl⟩⟩

/-! ## Control transfer -/

/-- Settles O37: the pop has its two cases, and the entry at the new depth is the target. -/
theorem returnResult : Obligations.ReturnResult := by
  refine fun s => ⟨decodeWord_encode .ret, fun hpos => ?_, fun hempty => exec_of_fault (i := .ret) (if_pos hempty)⟩
  refine ⟨_, execRet_of_pos hpos, rfl, fun k hk => ?_, rfl⟩
  simp [completed, hk]

/-- Settles O38: the target is the address field, widened. -/
theorem jumpResult : Obligations.JumpResult := fun nnn _ =>
  ⟨decodeWord_of_eq_encode (ofNat_eq_formatNNN 1 nnn), _, rfl, toNat_zext16 nnn, rfl⟩

/-- Settles O39: the push has its two cases, and writes one slot. -/
theorem callResult : Obligations.CallResult := by
  refine fun nnn s => ⟨decodeWord_of_eq_encode (ofNat_eq_formatNNN 2 nnn), fun hlt => ?_,
    fun hfull => exec_of_fault (i := .call nnn) (if_pos hfull)⟩
  refine ⟨_, execCall_of_lt nnn hlt, fun k => ?_, Fin.val_add_one_of_lt' (Nat.succ_lt_succ hlt), toNat_zext16 nnn, rfl⟩
  simp [completed, Vector.getElem_setIfInBounds, eq_comm]

/-- Settles O42: the sum fits in 16 bits. -/
theorem computedJumpResult : Obligations.ComputedJumpResult := fun nnn s =>
  ⟨decodeWord_of_eq_encode (ofNat_eq_formatNNN 0xB nnn), _, rfl, toNat_computedTarget s nnn, rfl⟩

end Sys2Proof.Machine
end

section
/-! Index-register and memory instructions (43_index_memory.md), and the coherence of the fetch with stores
(20_memory.md R61). -/

namespace Sys2Proof.Machine

/-! ## The bounds check, with the statements' bounds -/

theorem spanFault_inside {base count : Nat} (h : count = 0 ∨ base + (count - 1) < 4096) : spanFault base count = none :=
  if_pos ((spanInMemory_iff base count).mpr h)

theorem spanFault_outside {base count : Nat} (hcount : 0 < count) (h : 4096 ≤ base + (count - 1)) :
    spanFault base count = some .memoryOutOfBounds :=
  (spanFault_eq_some_iff base count _).mpr ⟨rfl, hcount, by omega⟩

/-! ## Index arithmetic -/

theorem toNat_zextByte (b : Byte) : (zextByte b).toNat = b.toNat := BitVec.toNat_setWidth_of_le (by decide)

theorem toNat_glyphAddress (digit : Byte) : (glyphAddress digit).toNat = 5 * digit.toNat := by
  have hlt := digit.isLt
  rw [glyphAddress, BitVec.toNat_ofNat, fontBase_eq, glyphBytes]
  omega

/-- Settles O32: addition of words is addition modulo 65536, and five times a byte fits in a word. -/
theorem indexArithmeticResult : Obligations.IndexArithmeticResult := by
  intro x s
  have hsum : (s.index + zextByte (s.reg x)).toNat = (s.index.toNat + (s.reg x).toNat) % 65536 := by
    rw [BitVec.toNat_add, toNat_zextByte]
  exact ⟨⟨decodeWord_of_eq_encode (ofNat_eq_formatX 0xF 0x1E x), _, rfl, hsum, rfl, rfl⟩,
    ⟨decodeWord_of_eq_encode (ofNat_eq_formatX 0xF 0x29 x), _, rfl, toNat_glyphAddress _, rfl, rfl⟩⟩

theorem toNat_bumpIndex {s : State} {x : Reg} (h : s.index.toNat + x.val < 4096) :
    (s.bumpIndex Config.loadStoreIncrementsI x).index.toNat =
      if Config.loadStoreIncrementsI then s.index.toNat + x.val + 1 else s.index.toNat := by
  rw [State.bumpIndex, State.setIndex_index]
  split
  next =>
    rw [BitVec.toNat_ofNat, State.indexAddr, regCount]
    omega
  next => rfl

/-! ## Stores -/

/-- The byte `k` of a list stored in memory is read back (20_memory.md R58). -/
theorem Memory.read_store_of_getElem? {m : Memory} {base k : Nat} {bytes : List Byte} {b : Byte}
    (h : bytes[k]? = some b) (hin : base + bytes.length ≤ 4096) :
    Memory.read (Memory.store m base bytes) (base + k) = b := by
  obtain ⟨hk, rfl⟩ := List.getElem?_eq_some_iff.mp h
  exact Memory.read_store_inside hk hin

theorem State.getElem?_regsUpTo (s : State) {x r : Reg} (h : r ≤ x) : (s.regsUpTo x)[r.val]? = some (s.reg r) := by
  have hlt : r.val < (s.regsUpTo x).length := by rwa [State.length_regsUpTo, lt_regCount_iff]
  rw [List.getElem?_eq_getElem hlt, State.getElem_regsUpTo]

theorem toNat_ofNat_byte {n : Nat} (h : n < 256) : (BitVec.ofNat 8 n).toNat = n := by
  rw [BitVec.toNat_ofNat, Nat.mod_eq_of_lt h]

/-- Settles O33: three digits are stored, each at its place, inside the span that was checked. -/
theorem storeDecimalDigitsResult : Obligations.StoreDecimalDigitsResult := by
  intro x s
  refine ⟨decodeWord_of_eq_encode (ofNat_eq_formatX 0xF 0x33 x), fun hin => ?inside,
    fun hout => exec_of_fault (i := .ldB x) (spanFault_outside (by decide) hout)⟩
  have hv := (s.reg x).isLt
  have hspan : s.index.toNat + (bcdDigits (s.reg x)).length ≤ 4096 := by rw [length_bcdDigits]; omega
  have hdigit {k : Nat} {b : Byte} (h : (bcdDigits (s.reg x))[k]? = some b) :
      Memory.read (completed s (.ldB x)).mem (s.index.toNat + k) = b := Memory.read_store_of_getElem? h hspan
  refine ⟨_, exec_of_fault_none (spanFault_inside (.inr hin)), ?hundreds, ?tens, ?ones, fun a ha => ?others, rfl, rfl⟩
  case hundreds => exact (congrArg BitVec.toNat (hdigit (k := 0) rfl)).trans (toNat_ofNat_byte (by omega))
  case tens => exact (congrArg BitVec.toNat (hdigit (k := 1) rfl)).trans (toNat_ofNat_byte (by omega))
  case ones => exact (congrArg BitVec.toNat (hdigit (k := 2) rfl)).trans (toNat_ofNat_byte (by omega))
  case others => exact Memory.read_store_outside (by rw [length_bcdDigits, State.indexAddr]; omega)

/-- What the stored registers read as, inside the span (43_index_memory.md R134). -/
theorem read_completed_stRegs {s : State} {x r : Reg} (hin : s.index.toNat + x.val < 4096) (hr : r ≤ x) :
    Memory.read (completed s (.stRegs x)).mem (s.index.toNat + r.val) = s.reg r :=
  Memory.read_store_of_getElem? (s.getElem?_regsUpTo hr) (by rw [State.length_regsUpTo]; exact hin)

theorem exec_stRegs {s : State} {x : Reg} (hin : s.index.toNat + x.val < 4096) :
    exec (.stRegs x) s = .next (completed s (.stRegs x)) := exec_of_fault_none (spanFault_inside (.inr hin))

/-- Settles O34: `V0` to `VX` are stored, each at its place, inside the span that was checked. -/
theorem storeRegistersResult : Obligations.StoreRegistersResult := by
  intro x s
  refine ⟨decodeWord_of_eq_encode (ofNat_eq_formatX 0xF 0x55 x), fun hin => ?inside,
    fun hout => exec_of_fault (i := .stRegs x) (spanFault_outside (Nat.succ_pos _) hout)⟩
  refine ⟨_, exec_stRegs hin, fun r hr => read_completed_stRegs hin hr, fun a ha => ?others, toNat_bumpIndex hin, rfl,
    rfl⟩
  exact Memory.read_store_outside (by rw [State.length_regsUpTo, State.indexAddr, regCount]; omega)

/-! ## Loads -/

/-- Settles O35: the first `X + 1` registers are loaded, the others kept. -/
theorem loadRegistersResult : Obligations.LoadRegistersResult := by
  intro x s
  have hload (r : Reg) : (completed s (.ldRegs x)).reg r =
      if r.val < regCount x then Memory.read s.mem (s.index.toNat + r.val) else s.reg r :=
    getElem_loadBytesInto s.mem s.index.toNat s.v (regCount x) r
  refine ⟨decodeWord_of_eq_encode (ofNat_eq_formatX 0xF 0x65 x), fun hin => ?inside,
    fun hout => exec_of_fault (i := .ldRegs x) (spanFault_outside (Nat.succ_pos _) hout)⟩
  refine ⟨_, exec_of_fault_none (spanFault_inside (.inr hin)), fun r hr => ?loaded, fun r hr => ?kept,
    toNat_bumpIndex hin, rfl, rfl⟩
  case loaded => rw [hload, if_pos ((lt_regCount_iff x r).mpr hr)]
  case kept => rw [hload, if_neg (mt (lt_regCount_iff x r).mp (not_le.mpr hr))]

/-! ## Stored code -/

/-- An `FX55` over the two bytes after itself leaves a running block that fetches the word of `V0` and `V1`. -/
theorem fetchWord_completed_stRegs {s : State} {x : Reg} (hpc : s.pc.toNat + 1 < 4096) (hx : 1 ≤ x.val)
    (hindex : s.index.toNat = s.pc.toNat + 2) (hin : s.index.toNat + x.val < 4096) :
    (completed s (.stRegs x)).fetchWord = some (wordOfBytes (s.reg 0) (s.reg 1)) := by
  have hnext : (completed s (.stRegs x)).pc.toNat = s.index.toNat := by
    rw [completed_pc s _ rfl, BitVec.toNat_add, hindex]
    exact Nat.mod_eq_of_lt (by simp; omega)
  have h0 := read_completed_stRegs hin (show (0 : Reg) ≤ x from Nat.zero_le _)
  have h1 := read_completed_stRegs hin (show (1 : Reg) ≤ x from hx)
  rw [State.fetchWord_of_lt (by omega), hnext]
  exact congrArg some (congrArg₂ wordOfBytes h0 h1)

/-- The cycle that stores the code, and the one that runs it. -/
theorem cycle_stored_code {s : State} {w : Word} {x : Reg} {j : Instr} (hrun : s.run = .running) (hkw : s.kw = none)
    (hf : s.fetchWord = some w) (hd : decodeWord w = .ok (.stRegs x)) (hx : 1 ≤ x.val)
    (hindex : s.index.toNat = s.pc.toNat + 2) (hin : s.index.toNat + x.val < 4096)
    (hj : decodeWord (wordOfBytes (s.reg 0) (s.reg 1)) = .ok j) :
    ∃ t, cycle s = .next t ∧ t.timeline = s.timeline ∧
      ∀ es, cycle { t with timeline := es } = exec j { t with timeline := es } := by
  have hfetch := fetchWord_completed_stRegs (State.pc_lt_of_fetchWord hf) hx hindex hin
  exact ⟨completed s (.stRegs x), (cycle_of_decode_ok hrun hkw hf hd).trans (exec_stRegs hin), rfl,
    fun es => cycle_of_decode_ok (s := { completed s (.stRegs x) with timeline := es }) hrun hkw hfetch hj⟩

/-- Settles O36: the two cycles, with nothing placed or as the two events placed next. -/
theorem storedCodeRunsNext : Obligations.StoredCodeRunsNext := by
  intro s w x j hrun hkw hf hd hx hindex hin hj
  refine ⟨fun hnil => ?_, fun rest hcons => ?_⟩
  · obtain ⟨t, hstore, htimeline, hcode⟩ := cycle_stored_code hrun hkw hf hd hx hindex hin hj
    exact ⟨t, (step_of_nil hnil).trans hstore, (step_of_nil (htimeline.trans hnil)).trans (hcode t.timeline)⟩
  · obtain ⟨t, hstore, htimeline, hcode⟩ :=
      cycle_stored_code (s := { s with timeline := .cycle :: rest }) hrun hkw hf hd hx hindex hin hj
    exact ⟨t, (step_of_cons hcons).trans hstore, (step_of_cons htimeline).trans (hcode rest)⟩

end Sys2Proof.Machine
end

section
/-! The sprite instruction `DXYN` (41_display.md R112 to R118). A sprite's bits fall on different pixels, so the order
in which they are drawn does not matter: the blit inverts a set of pixels, and collides where that set meets a set
pixel. -/

namespace Sys2Proof.Machine

/-! ## Inverting a set of pixels -/

/-- The blit `acc'` comes from `acc` by inverting the pixels of `lit`, with a collision if one of them was set. -/
structure Inverts (lit : Nat → Nat → Bool) (acc acc' : Blit) : Prop where
  pixel : ∀ col row, Frame.pixel acc'.1 col row = (Frame.pixel acc.1 col row ^^ lit col row)
  collision : acc'.2 = true ↔ acc.2 = true ∨ ∃ col row, lit col row = true ∧ Frame.pixel acc.1 col row = true

theorem Inverts.nothing (acc : Blit) : Inverts (fun _ _ => false) acc acc := ⟨by simp, by simp⟩

/-- Two sets without a common pixel are inverted one after the other. -/
theorem Inverts.trans {p q : Nat → Nat → Bool} {a b c : Blit} (hp : Inverts p a b) (hq : Inverts q b c)
    (hdisjoint : ∀ col row, p col row = true → q col row = false) :
    Inverts (fun col row => p col row || q col row) a c where
  pixel col row := by
    rw [hq.pixel, hp.pixel]
    cases hpx : p col row with
    | true => simp [hdisjoint col row hpx]
    | false => simp
  collision := by
    have hsame : ∀ col row, q col row = true → Frame.pixel b.1 col row = Frame.pixel a.1 col row := by
      intro col row hqx
      have hpx : p col row = false := by
        by_contra hpx
        rw [hdisjoint col row (Bool.not_eq_false _ ▸ hpx)] at hqx
        cases hqx
      rw [hp.pixel, hpx, Bool.xor_false]
    have hlater : (∃ col row, q col row = true ∧ Frame.pixel b.1 col row = true) ↔
        ∃ col row, q col row = true ∧ Frame.pixel a.1 col row = true := by
      refine exists_congr fun col => exists_congr fun row => and_congr_right fun hqx => ?_
      rw [hsame col row hqx]
    rw [hq.collision, hp.collision, hlater, or_assoc]
    simp only [Bool.or_eq_true, or_and_right, exists_or]

/-! ## The sprite's pixels -/

/-- The pixel at column `col`, row `row` is the one at `x`, `y`, all reduced. -/
def onPixel (x y col row : Nat) : Bool := decide (x % 64 = col % 64) && decide (y % 32 = row % 32)

/-- The pixel is under a 1 bit among the first `count` of a sprite byte drawn at `x`, `y`. -/
def rowLit (x y : Nat) (b : Byte) (count col row : Nat) : Bool :=
  (List.range count).any fun c => b.getLsbD (7 - c) && onPixel (x + c) y col row

/-- The pixel is under a 1 bit of a sprite drawn at `x`, `y`. -/
def rowsLit (x y : Nat) : List Byte → Nat → Nat → Bool
  | [], _, _ => false
  | b :: rest, col, row => rowLit x y b 8 col row || rowsLit x (y + 1) rest col row

theorem onPixel_iff (x y col row : Nat) : onPixel x y col row = true ↔ x % 64 = col % 64 ∧ y % 32 = row % 32 := by
  simp [onPixel]

theorem rowLit_iff (x y : Nat) (b : Byte) (count col row : Nat) :
    rowLit x y b count col row = true ↔
      ∃ c < count, b.getLsbD (7 - c) = true ∧ (x + c) % 64 = col % 64 ∧ y % 32 = row % 32 := by
  simp [rowLit, onPixel_iff]

theorem rowLit_succ (x y : Nat) (b : Byte) (count col row : Nat) :
    rowLit x y b (count + 1) col row =
      (rowLit x y b count col row || (b.getLsbD (7 - count) && onPixel (x + count) y col row)) := by
  simp [rowLit, List.range_succ]

theorem rowsLit_iff (x y : Nat) (bytes : List Byte) (col row : Nat) :
    rowsLit x y bytes col row = true ↔ ∃ r b, bytes[r]? = some b ∧ rowLit x (y + r) b 8 col row = true := by
  induction bytes generalizing y with
  | nil => simp [rowsLit]
  | cons b rest ih =>
    rw [rowsLit, Bool.or_eq_true, ih]
    constructor
    · rintro (h | ⟨r, c, hc, h⟩)
      · exact ⟨0, b, rfl, h⟩
      · exact ⟨r + 1, c, hc, by rwa [← Nat.add_assoc, Nat.add_right_comm]⟩
    · rintro ⟨_ | r, c, hc, h⟩
      · cases hc
        exact .inl h
      · exact .inr ⟨r, c, hc, by rwa [Nat.add_right_comm]⟩

/-! ## The blit inverts the sprite's pixels -/

theorem Frame.pixel_eq_of_onPixel {f : Frame} {x y col row : Nat} (h : onPixel x y col row = true) :
    Frame.pixel f col row = Frame.pixel f x y := by
  obtain ⟨hx, hy⟩ := (onPixel_iff x y col row).mp h
  simp only [Frame.pixel, hx, hy]

theorem blitPixel_inverts (x y : Nat) (bit : Bool) (acc : Blit) :
    Inverts (fun col row => bit && onPixel x y col row) acc (blitPixel x y bit acc) := by
  cases bit with
  | false => simpa [blitPixel] using Inverts.nothing acc
  | true =>
    refine ⟨fun col row => ?_, ?_⟩
    · simp only [blitPixel, if_true, Frame.pixel_toggle, ← onPixel_iff, Bool.true_and]
      cases onPixel x y col row <;> simp
    · have hself : onPixel x y x y = true := (onPixel_iff x y x y).mpr ⟨rfl, rfl⟩
      have hset : (∃ col row, onPixel x y col row = true ∧ Frame.pixel acc.1 col row = true) ↔
          Frame.pixel acc.1 x y = true :=
        ⟨fun ⟨_, _, hon, hpx⟩ => Frame.pixel_eq_of_onPixel hon ▸ hpx, fun hpx => ⟨x, y, hself, hpx⟩⟩
      simp only [blitPixel, if_true, Bool.true_and, hset, Bool.or_eq_true]

/-- The first `count` bits of a sprite byte: 8 columns never wrap onto each other. -/
theorem blitRow_first_bits_inverts (x y : Nat) (b : Byte) (acc : Blit) {count : Nat} (h : count ≤ 8) :
    Inverts (rowLit x y b count) acc
      ((List.range count).foldl (fun acc c => blitPixel (x + c) y (b.getLsbD (7 - c)) acc) acc) := by
  induction count with
  | zero => exact Inverts.nothing acc
  | succ k ih =>
    have hlit : rowLit x y b (k + 1) = fun col row =>
        rowLit x y b k col row || (b.getLsbD (7 - k) && onPixel (x + k) y col row) := by
      funext col row
      exact rowLit_succ x y b k col row
    rw [List.range_succ, List.foldl_append, hlit]
    refine (ih (by omega)).trans (blitPixel_inverts _ _ _ _) fun col row hk => ?_
    obtain ⟨c, hc, -, hcol, -⟩ := (rowLit_iff ..).mp hk
    simp only [onPixel, Bool.and_eq_false_iff, decide_eq_false_iff_not]
    exact .inr (.inl (by omega))

theorem blitRow_inverts (x y : Nat) (b : Byte) (acc : Blit) : Inverts (rowLit x y b 8) acc (blitRow x y b acc) :=
  blitRow_first_bits_inverts x y b acc (Nat.le_refl 8)

/-- A whole sprite: up to 32 rows never wrap onto each other. -/
theorem blitRows_inverts (x y : Nat) {bytes : List Byte} (h : bytes.length ≤ 32) (acc : Blit) :
    Inverts (rowsLit x y bytes) acc (blitRows x y bytes acc) := by
  induction bytes generalizing y acc with
  | nil => exact Inverts.nothing acc
  | cons b rest ih =>
    rw [List.length_cons] at h
    refine (blitRow_inverts x y b acc).trans (ih (y + 1) (by omega) _) fun col row hb => ?_
    obtain ⟨-, -, -, -, hrow⟩ := (rowLit_iff ..).mp hb
    refine Bool.eq_false_iff.mpr fun hrest => ?_
    obtain ⟨r, c, hc, hr⟩ := (rowsLit_iff ..).mp hrest
    obtain ⟨hlt, -⟩ := List.getElem?_eq_some_iff.mp hc
    obtain ⟨-, -, -, -, hrow'⟩ := (rowLit_iff ..).mp hr
    omega

/-- The pixels of the sprite of `DXYN`, as the statements name them. -/
theorem spriteLit_eq (s : State) (x y : Reg) (n : BitVec 4) {col row : Nat} (hcol : col < 64) (hrow : row < 32) :
    s.spriteLit x y n col row =
      rowsLit (s.reg x).toNat (s.reg y).toNat (Memory.load s.mem s.indexAddr n.toNat) col row := by
  rw [Bool.eq_iff_iff, rowsLit_iff]
  simp only [State.spriteLit, List.any_eq_true, List.mem_range, Bool.and_eq_true, decide_eq_true_eq, rowLit_iff,
    Memory.getElem?_load, Nat.mod_eq_of_lt hcol, Nat.mod_eq_of_lt hrow, State.indexAddr]
  constructor
  · rintro ⟨r, hr, c, hc, ⟨hy, hx⟩, hbit⟩
    exact ⟨r, _, if_pos hr, c, hc, hbit, hx, hy⟩
  · rintro ⟨r, b, hb, c, hc, hbit, hx, hy⟩
    split at hb
    next hr =>
      cases hb
      exact ⟨r, hr, c, hc, ⟨hy, hx⟩, hbit⟩
    next => cases hb

theorem spriteBlit_inverts (s : State) (x y : Reg) (n : BitVec 4) :
    Inverts (rowsLit (s.reg x).toNat (s.reg y).toNat (Memory.load s.mem s.indexAddr n.toNat)) (s.fb, false)
      (s.spriteBlit x y n) :=
  blitRows_inverts _ _ (by rw [Memory.length_load]; omega) _

/-- A set pixel under a 1 bit is one that the blit clears; and a pixel anywhere is one inside the frame. -/
theorem spriteBlit_collision (s : State) (x y : Reg) (n : BitVec 4) :
    (s.spriteBlit x y n).2 = true ↔
      ∃ col row, col < 64 ∧ row < 32 ∧ Frame.pixel s.fb col row = true ∧
        Frame.pixel (s.spriteBlit x y n).1 col row = false := by
  have hinv := spriteBlit_inverts s x y n
  rw [hinv.collision]
  constructor
  · rintro (hfalse | ⟨col, row, hlit, hset⟩)
    · cases hfalse
    · have hcleared : Frame.pixel (s.spriteBlit x y n).1 col row = false := by rw [hinv.pixel, hlit, hset]; rfl
      have hmod : onPixel (col % 64) (row % 32) col row = true := by simp [onPixel]
      rw [Frame.pixel_eq_of_onPixel hmod] at hset hcleared
      exact ⟨_, _, Nat.mod_lt _ (by decide), Nat.mod_lt _ (by decide), hset, hcleared⟩
  · rintro ⟨col, row, -, -, hset, hcleared⟩
    rw [hinv.pixel, hset, Bool.true_xor, Bool.not_eq_false'] at hcleared
    exact .inr ⟨col, row, hcleared, hset⟩

/-! ## The statements -/

theorem flagByte_eq_zero_or_one (c : Bool) : flagByte c = 0 ∨ flagByte c = 1 := by cases c <;> simp [flagByte]

theorem flagByte_eq_one_iff (c : Bool) : flagByte c = 1 ↔ c = true := by cases c <;> simp [flagByte]

/-- Settles O26: the blit inverts the sprite's pixels, and its collision is what `VF` says. -/
theorem drawSpriteResult : Obligations.DrawSpriteResult := by
  intro x y n s
  have hword : BitVec.ofNat 16 (0xD000 + 0x100 * x.val + 0x10 * y.val + n.toNat) = encode (.drw x y n) :=
    ofNat_eq_formatXYN 0xD x y n
  have hvf : (completed s (.drw x y n)).reg 15 = flagByte (s.spriteBlit x y n).2 := State.setReg_reg_same _ _ _
  refine ⟨decodeWord_of_eq_encode hword, fun hin => ?inside,
    fun ⟨hn, hout⟩ => exec_of_fault (i := .drw x y n) (spanFault_outside hn (by rw [State.indexAddr]; omega))⟩
  have hspan : n.toNat = 0 ∨ s.indexAddr + (n.toNat - 1) < 4096 := by rw [State.indexAddr]; omega
  refine ⟨completed s (.drw x y n), exec_of_fault_none (spanFault_inside hspan), fun col hcol row hrow => ?pixels, ?bit,
    ?collision, fun r hr => State.setReg_reg_ne _ _ hr, rfl, rfl⟩
  case pixels => rw [spriteLit_eq s x y n hcol hrow]; exact (spriteBlit_inverts s x y n).pixel col row
  case bit => rw [hvf]; exact flagByte_eq_zero_or_one _
  case collision => rw [hvf, flagByte_eq_one_iff]; exact spriteBlit_collision s x y n

/-- The sprite depends on the two coordinates, on `I` and on memory. -/
theorem spriteLit_congr {s t : State} {x y : Reg} (n : BitVec 4) (hx : t.reg x = s.reg x) (hy : t.reg y = s.reg y)
    (hindex : t.index = s.index) (hmem : t.mem = s.mem) (col row : Nat) :
    t.spriteLit x y n col row = s.spriteLit x y n col row := by
  simp only [State.spriteLit, hx, hy, hindex, hmem]

/-- Settles O27: the second draw inverts the same pixels, because the first leaves the coordinates, `I` and memory as
they were. -/
theorem drawingTwiceRestoresTheDisplay : Obligations.DrawingTwiceRestoresTheDisplay := by
  intro x y n s hx hy hin
  obtain ⟨-, hdraw, -⟩ := drawSpriteResult x y n s
  obtain ⟨t, ht, hpixel, hbit, hcollision, hothers, -, hframe⟩ := hdraw hin
  have hindex : t.index = s.index := by rw [hframe]
  have hlit := spriteLit_congr n (hothers x hx) (hothers y hy) hindex (by rw [hframe])
  obtain ⟨-, hdraw', -⟩ := drawSpriteResult x y n t
  obtain ⟨u, hu, hpixel', hbit', hcollision', -⟩ := hdraw' (by rwa [hindex])
  have hrestored : ∀ col < 64, ∀ row < 32, Frame.pixel u.fb col row = Frame.pixel s.fb col row := by
    intro col hcol row hrow
    rw [hpixel' col hcol row hrow, hpixel col hcol row hrow, hlit, Bool.xor_assoc, Bool.xor_self, Bool.xor_false]
  refine ⟨t, u, ht, hu, Frame.ext_pixel hrestored, fun hunset => ?_⟩
  have hsecond : u.reg 15 = 1 ↔ ∃ col row, col < 64 ∧ row < 32 ∧ s.spriteLit x y n col row = true := by
    rw [hcollision']
    refine exists_congr fun col => exists_congr fun row => and_congr_right fun hcol => and_congr_right fun hrow => ?_
    have hs := hunset col hcol row hrow
    rw [hrestored col hcol row hrow, hpixel col hcol row hrow]
    cases hl : s.spriteLit x y n col row with
    | true => simp [hs hl]
    | false => simp
  refine ⟨hbit.resolve_right fun hone => ?_, fun col hcol row hrow hl => ?_, hsecond, ?_⟩
  · obtain ⟨col, row, hcol, hrow, hset, hcleared⟩ := hcollision.mp hone
    rw [hpixel col hcol row hrow, hset, Bool.true_xor, Bool.not_eq_false'] at hcleared
    rw [hunset col hcol row hrow hcleared] at hset
    cases hset
  · rw [hpixel col hcol row hrow, hunset col hcol row hrow hl, hl]; rfl
  · have hzero : u.reg 15 = 0 ↔ ¬u.reg 15 = 1 :=
      ⟨fun h => by rw [h]; decide, fun h => hbit'.resolve_right h⟩
    rw [hzero, hsecond]
    simp

end Sys2Proof.Machine
end
